-- ==== Sys2Proof/Word.lean ====
section
/-! DEFINITION. Words, bytes and the 4-byte instruction group: the plainest types of the machine. -/

namespace Sys2Proof

/-- The width `W = 32` of the accumulator and of every data-memory word (R7); an instruction word is 32 bits too (R45). -/
abbrev Word := BitVec 32

/-- One byte of the input stream (R38). -/
abbrev Byte := BitVec 8

/-- The 4-bit opcode field of an instruction word (R45). -/
abbrev Opcode := BitVec 4

/-- The 28-bit operand field of an instruction word (R45). -/
abbrev Field := BitVec 28

/-- An instruction group: four consecutive bytes of the stream, in stream order (R38, R46). -/
structure InstrGroup where
  b0 : Byte
  b1 : Byte
  b2 : Byte
  b3 : Byte
  deriving DecidableEq, Repr

end Sys2Proof
end

