-- ==== Sys2Proof/Config.lean ====
section
/-! DEFINITION. The parameters the spec leaves OPEN (00_scope.md section 3), as plain data. Each type has exactly the
values the spec allows, so a configuration outside the spec cannot be written. -/

namespace Sys2Proof

/-- `A`, the width of a data-memory address: 11 or 16 bits (R5). -/
inductive AddressWidth where
  | a11
  | a16
  deriving DecidableEq, Repr

/-- `BSWAP_SOURCE`: where Byte-Swap reads its operand (R6). -/
inductive BswapSource where
  | acc
  | memAtAcc
  deriving DecidableEq, Repr

/-- `LDC_WIDTH`: how many field bits Load-Constant reads, 27 or 28 (R8). -/
inductive LdcWidth where
  | w27
  | w28
  deriving DecidableEq, Repr

/-- `UNKNOWN_OPCODE_POLICY` (R11). -/
inductive UnknownOpcodePolicy where
  | fault
  | skip
  deriving DecidableEq, Repr

/-- `ADDR_OOB_POLICY` (R12). -/
inductive AddrOobPolicy where
  | wrap
  | fault
  deriving DecidableEq, Repr

/-- The number of address bits (R5). -/
def AddressWidth.bits : AddressWidth → Nat
  | .a11 => 11
  | .a16 => 16

/-- The number of operand bits (R8). -/
def LdcWidth.bits : LdcWidth → Nat
  | .w27 => 27
  | .w28 => 28

/-- One choice of every parameter. `maxWords = none` is the unbounded store that R14 and I15 allow a model. -/
structure Config where
  addressWidth : AddressWidth
  bswapSource : BswapSource
  ldcWidth : LdcWidth
  unknownOpcodePolicy : UnknownOpcodePolicy
  addrOobPolicy : AddrOobPolicy
  maxWords : Option Nat
  deriving DecidableEq, Repr

/-- `A` as a number (R5); also `LDR_WIDTH` (R10). -/
def Config.a (c : Config) : Nat := c.addressWidth.bits

/-- `2^A`, the number of data-memory words (R5, R22). -/
def Config.memWords (c : Config) : Nat := 2 ^ c.a

/-- `N` groups fit the instruction store: always, or up to `MAX_WORDS` (R14, I15). -/
def Config.fits (c : Config) (numGroups : Nat) : Bool :=
  match c.maxWords with
  | none => true
  | some m => decide (numGroups ≤ m)

/-- Profile `P11` with the default policies (R13). -/
def Config.p11 : Config where
  addressWidth := .a11
  bswapSource := .memAtAcc
  ldcWidth := .w27
  unknownOpcodePolicy := .fault
  addrOobPolicy := .wrap
  maxWords := none

/-- Profile `P16` with the default policies (R13). -/
def Config.p16 : Config where
  addressWidth := .a16
  bswapSource := .acc
  ldcWidth := .w27
  unknownOpcodePolicy := .fault
  addrOobPolicy := .wrap
  maxWords := none

/-- DESIGN CHOICE (unsafe, log entry 1): the configuration `State.reset` and `decodeTableWord` use. The spec chooses no
profile (R13, N5); every statement that should hold of dz4 quantifies over the configuration instead. -/
def Config.ofReset : Config := Config.p16

end Sys2Proof
end

