-- ==== Sys2Proof/Syntax.lean ====
section
/-! DEFINITION. The instruction set as syntax: one constructor for each row of spec/opcode_table.json (R2). -/

namespace Sys2Proof

/-- The four instructions (R2), each with the operand its opcode reads (R51). An operand has the widest type any
configuration gives it; `Instr.wf` holds it to the configuration's width. -/
inductive Instr where
  /-- LDC, Load-Constant: `imm` of `LDC_WIDTH` bits, 27 or 28 (R80). -/
  | ldc (imm : BitVec 28)
  /-- ST, Store: `addr` of `ST_WIDTH = 15` bits (R9, R81). -/
  | st (addr : BitVec 15)
  /-- LDR, Load-Relative: `shift` of `LDR_WIDTH = A` bits, 11 or 16 (R10, R82). -/
  | ldr (shift : BitVec 16)
  /-- BSWAP, Byte-Swap: no operand (R86). -/
  | bswap
  deriving DecidableEq, Repr

end Sys2Proof
end

