-- ==== Sys2Proof/WellFormed.lean ====
section
/-! DEFINITION. Which instructions a configuration can encode: the operand fits the width its opcode reads (R51, R57). -/

namespace Sys2Proof

/-- The operand is below `2^width(op)` (R57). ST's 15 bits are in its type, and BSWAP has no operand. -/
def Instr.wf (c : Config) : Instr → Bool
  | .ldc imm => decide (imm.toNat < 2 ^ c.ldcWidth.bits)
  | .st _ => true
  | .ldr shift => decide (shift.toNat < 2 ^ c.a)
  | .bswap => true

end Sys2Proof
end

