-- ==== Sys2Proof/Decode.lean ====
section
/-! DEFINITION. The instruction codec (30_encoding.md) and the cutting of the byte stream into groups (20_memory.md
section 4). Decoding is total; an opcode that is no instruction is answered by the name `unknown`. -/

namespace Sys2Proof

/-! ### The word of a group -/

/-- `word = b3 ++ b2 ++ b1 ++ b0` (R47): the first byte of the stream is the least significant (R36). -/
def InstrGroup.word (g : InstrGroup) : Word := g.b3 ++ g.b2 ++ g.b1 ++ g.b0

/-- The group that holds a word: byte `k` of the stream is bits `8k+7 .. 8k` (R36, R47). -/
def InstrGroup.ofWord (w : Word) : InstrGroup where
  b0 := w.extractLsb' 0 8
  b1 := w.extractLsb' 8 8
  b2 := w.extractLsb' 16 8
  b3 := w.extractLsb' 24 8

/-- `opcode = word[3:0]` (R45, R50). -/
def InstrGroup.opcode (g : InstrGroup) : Opcode := g.word.extractLsb' 0 4

/-- `field = word[31:4]` (R45, R50). -/
def InstrGroup.field (g : InstrGroup) : Field := g.word.extractLsb' 4 28

/-- The group of four 0x00 bytes. -/
def InstrGroup.zero : InstrGroup := ⟨0, 0, 0, 0⟩

/-! ### Decode -/

/-- What `select` answers: an instruction, or the kind UNKNOWN (R51, R52). -/
inductive Selected where
  | instr (i : Instr)
  | unknown
  deriving DecidableEq, Repr

/-- What `decode` returns: the opcode, and the kind with its operand (R50). -/
structure Decoded where
  opcode : Opcode
  selected : Selected
  deriving DecidableEq, Repr

/-- `imm = field[LDC_WIDTH-1:0]` (R51). -/
def ldcOperand (c : Config) (f : Field) : BitVec 28 :=
  match c.ldcWidth with
  | .w27 => (f.extractLsb' 0 27).setWidth 28
  | .w28 => f

/-- `addr = field[14:0]` (R51). -/
def stOperand (f : Field) : BitVec 15 := f.extractLsb' 0 15

/-- `shift = field[A-1:0]` (R51). -/
def ldrOperand (c : Config) (f : Field) : BitVec 16 :=
  match c.addressWidth with
  | .a11 => (f.extractLsb' 0 11).setWidth 16
  | .a16 => f.extractLsb' 0 16

/-- `select`: the opcode map (R51, R55). The twelve opcodes of R56 are unknown. -/
def select (c : Config) (op : Opcode) (f : Field) : Selected :=
  if op = 0x8#4 then .instr (.ldc (ldcOperand c f))
  else if op = 0x9#4 then .instr (.st (stOperand f))
  else if op = 0xA#4 then .instr (.ldr (ldrOperand c f))
  else if op = 0x2#4 then .instr .bswap
  else .unknown

/-- `decode`: total on every group (R50, R53). -/
def decode (c : Config) (g : InstrGroup) : Decoded where
  opcode := g.opcode
  selected := select c g.opcode g.field

/-! ### Encode -/

/-- The byte layout of an opcode and a field (R46). -/
def encodeField (op : Opcode) (f : Field) : InstrGroup where
  b0 := f.extractLsb' 0 4 ++ op
  b1 := f.extractLsb' 4 8
  b2 := f.extractLsb' 12 8
  b3 := f.extractLsb' 20 8

/-- `encode(op, v)` of R48: the opcode is taken modulo `2^4` and the operand, any integer, modulo `2^28`. -/
def encodeInt (op : Nat) (v : Int) : InstrGroup := encodeField (BitVec.ofNat 4 op) (BitVec.ofInt 28 v)

/-- The opcode of an instruction (R55). -/
def Instr.opcode : Instr → Opcode
  | .ldc _ => 0x8#4
  | .st _ => 0x9#4
  | .ldr _ => 0xA#4
  | .bswap => 0x2#4

/-- The field the encoder packs for an instruction: the operand in its low bits, the rest zero (R48, R51; BSWAP's is 0, R65). -/
def Instr.field : Instr → Field
  | .ldc imm => imm
  | .st addr => addr.setWidth 28
  | .ldr shift => shift.setWidth 28
  | .bswap => 0

/-- The group of an instruction (R46, R48). -/
def encode (i : Instr) : InstrGroup := encodeField i.opcode i.field

/-! ### The byte stream -/

/-- The stream cut into groups, the last filled with 0x00 bytes at its end (R38, R39). -/
def groupsOf : List Byte → List InstrGroup
  | [] => []
  | [x0] => [⟨x0, 0, 0, 0⟩]
  | [x0, x1] => [⟨x0, x1, 0, 0⟩]
  | [x0, x1, x2] => [⟨x0, x1, x2, 0⟩]
  | x0 :: x1 :: x2 :: x3 :: rest => ⟨x0, x1, x2, x3⟩ :: groupsOf rest

/-- The four bytes of a group in stream order (R46). -/
def InstrGroup.bytes (g : InstrGroup) : List Byte := [g.b0, g.b1, g.b2, g.b3]

/-- The stream of a list of groups: their bytes in order, with no header (R38, R69). -/
def streamOf : List InstrGroup → List Byte
  | [] => []
  | g :: rest => g.bytes ++ streamOf rest

/-! ### The codec's ports -/

/-- The kinds of R51. -/
inductive Kind where
  | unknown
  | ldc
  | st
  | ldr
  | bswap
  deriving DecidableEq, Repr

/-- The numbering of `dec_kind` (R60). -/
def Kind.code : Kind → BitVec 3
  | .unknown => 0
  | .ldc => 1
  | .st => 2
  | .ldr => 3
  | .bswap => 4

/-- The kind of a selection (R51). -/
def Selected.kind : Selected → Kind
  | .unknown => .unknown
  | .instr (.ldc _) => .ldc
  | .instr (.st _) => .st
  | .instr (.ldr _) => .ldr
  | .instr .bswap => .bswap

/-- Outputs of the encoder `dz4_encode` (R60). -/
structure EncoderPorts where
  encB0 : Byte
  encB1 : Byte
  encB2 : Byte
  encB3 : Byte
  encWord : Word
  deriving DecidableEq, Repr

/-- The combinational encoder (R60): `enc_word = enc_operand ++ enc_opcode`. -/
def dz4Encode (encOpcode : Opcode) (encOperand : Field) : EncoderPorts where
  encB0 := (encodeField encOpcode encOperand).b0
  encB1 := (encodeField encOpcode encOperand).b1
  encB2 := (encodeField encOpcode encOperand).b2
  encB3 := (encodeField encOpcode encOperand).b3
  encWord := encOperand ++ encOpcode

/-- Outputs of the decoder `dz4_decode` (R60). `decImm` and `decShift` have the widest width; the bits above the
configuration's width are 0. -/
structure DecoderPorts where
  decWord : Word
  decOpcode : Opcode
  decField : Field
  decKnown : Bool
  decKind : BitVec 3
  decImm : BitVec 28
  decAddr : BitVec 15
  decShift : BitVec 16
  deriving DecidableEq, Repr

/-- The combinational decoder (R60): the three operand ports always show their slices of the field. -/
def dz4Decode (c : Config) (g : InstrGroup) : DecoderPorts where
  decWord := g.word
  decOpcode := g.opcode
  decField := g.field
  decKnown := decide ((decode c g).selected ≠ .unknown)
  decKind := (decode c g).selected.kind.code
  decImm := ldcOperand c g.field
  decAddr := stOperand g.field
  decShift := ldrOperand c g.field

/-! ### The decoder on one word of the opcode table -/

/-- The group a table word of `nbits` bits is laid out as: bits above `nbits` are 0 (R36). -/
def tableGroup (nbits w : Nat) : InstrGroup := InstrGroup.ofWord (BitVec.ofNat 32 (w % 2 ^ nbits))

/-- The instruction the decoder reads from a table word, under the configuration of reset (log entry 9). -/
def decodeTableWord (nbits w : Nat) : Option Instr :=
  match (decode Config.ofReset (tableGroup nbits w)).selected with
  | .instr i => some i
  | .unknown => none

end Sys2Proof
end

