-- ==== Sys2Proof/Machine/State.lean ====
section
/-! DEFINITION. The machine's state (10_state.md) as plain data, the reasons a step can stop, and the state after reset. -/

namespace Sys2Proof.Machine

/-- The run status (R25). -/
inductive Status where
  | run
  | done
  | fault
  deriving DecidableEq, Repr

/-- The two synchronous faults of the machine (R90). -/
inductive FaultCause where
  | unknownOpcode
  | addressOutOfRange
  deriving DecidableEq, Repr

/-- What a fault records (R26, R91): the cause, the `pc` of the faulting group and that group's word. -/
structure FaultRecord where
  cause : FaultCause
  index : Nat
  word : Word
  deriving DecidableEq, Repr

/-- One listed word of data memory: its address and its value. The unit is the word, since "no smaller unit can be
addressed" (R22); DESIGN CHOICE (safe, log entry 3) to list words and not bytes. -/
abbrev MemCell := Nat × Word

/-- Data memory (R22): the cells whose word is not the reset word, addresses strictly rising. `Memory.wf` says this form. -/
abbrev Memory := List MemCell

/-- The state of one run (R20 to R28). The number `N` of groups is the length of `store` (R23). -/
structure State where
  /-- The parameters the spec leaves OPEN (R5, R6, R8, R11, R12, R14); no step changes them. The model's own field. -/
  config : Config
  /-- The accumulator (R20). -/
  acc : Word
  /-- The data memory (R22). -/
  mem : Memory
  /-- The instruction store (R23). -/
  store : List InstrGroup
  /-- The program counter, an index of groups (R24). -/
  pc : Nat
  /-- The run status (R25). -/
  status : Status
  /-- The fault record, none outside FAULT (R26). -/
  faultRecord : Option FaultRecord
  deriving DecidableEq, Repr

/-- Why the host's machine stops. These are not the machine's own faults: `UNKNOWN_OPCODE` and `ADDRESS_OUT_OF_RANGE`
are next states with status FAULT (R92). -/
inductive Fault where
  /-- Raised by `step` in DONE, where "no step exists" (R70). Safe: nothing is claimed after the end of a run. -/
  | noStepInDone
  /-- Raised by `step` in FAULT, where "no step exists" (R70, R93). Safe, as above. -/
  | noStepInFault
  /-- Raised by `step`, and by an instruction that faults, where `pc` names no group of the store. The spec has
  `pc <= N` always (R24), so no run of the machine reaches it. Safe. -/
  | pcOutsideStore
  deriving DecidableEq, Repr

/-- Why the model has no meaning to give. -/
inductive Refusal where
  /-- An instruction without a meaning yet; raised by an arm of `exec` only. No arm raises it now. Safe. -/
  | notModelled (mnemonic : String)
  /-- Raised by `boot` for a program of more than `MAX_WORDS` groups, which "is refused" (R14, I15, D9). Safe. -/
  | programTooLong
  deriving DecidableEq, Repr

/-- The state at the start of every run (R28, R100), for any parameters and instruction store. -/
def State.initial (c : Config) (store : List InstrGroup) : State where
  config := c
  acc := 0
  mem := []
  store := store
  pc := 0
  status := .run
  faultRecord := none

/-- Reset with the empty byte stream (R28, R38: `L = 0` gives `N = 0`), under the configuration `Config.ofReset`
(DESIGN CHOICE, log entries 1 and 2). -/
def State.reset : State := State.initial Config.ofReset []

end Sys2Proof.Machine
end

