-- ==== Sys2Proof/Machine/Ops.lean ====
section
/-! DEFINITION. The named operations over memory, the registers, the instruction store, and the taking of a fault. -/

namespace Sys2Proof.Machine

/-! ### Data memory -/

/-- What a word that nothing has written reads as: the reset value 0 (R28, R33). -/
def unwrittenWord : Word := 0

/-- The canonical form: addresses strictly rising, below the size, and no cell that an unlisted address would equal. -/
abbrev Memory.wf (size : Nat) (m : Memory) : Prop :=
  m.Pairwise (fun x y => x.1 < y.1) ∧ ∀ cell ∈ m, cell.1 < size ∧ cell.2 ≠ unwrittenWord

/-- `MemRead(a)` (R16, R33). -/
def Memory.read : Memory → Nat → Word
  | [], _ => unwrittenWord
  | (b, w) :: rest, a => if a = b then w else Memory.read rest a

/-- A cell in front of a memory, unless it holds what an unlisted address reads as. -/
def Memory.cons (a : Nat) (v : Word) (m : Memory) : Memory :=
  if v = unwrittenWord then m else (a, v) :: m

/-- `MemWrite(a, v)` (R16), keeping the canonical form. -/
def Memory.write : Memory → Nat → Word → Memory
  | [], a, v => Memory.cons a v []
  | (b, w) :: rest, a, v =>
    if a < b then Memory.cons a v ((b, w) :: rest)
    else if a = b then Memory.cons a v rest
    else (b, w) :: Memory.write rest a v

/-- The data word at address `a` (R16). -/
def State.memRead (a : Nat) (s : State) : Word := s.mem.read a

/-- Writes the data word at address `a` (R16). -/
def State.memWrite (a : Nat) (v : Word) (s : State) : State := { s with mem := s.mem.write a v }

/-! ### Registers -/

/-- `acc <- v` (R16). -/
def State.setAcc (v : Word) (s : State) : State := { s with acc := v }

/-- `pc <- pc + 1`, what every completing instruction does (R73). -/
def State.advance (s : State) : State := { s with pc := s.pc + 1 }

/-- `status <- DONE`, all that the last step of a run changes (R70). -/
def State.finish (s : State) : State := { s with status := .done }

/-! ### The instruction store -/

/-- `N`, the number of instruction groups (R23, R28). -/
def State.numGroups (s : State) : Nat := s.store.length

/-- `Instr(pc)`, the group that executes; none where `pc` names no group (R23, R71). -/
def State.currentGroup (s : State) : Option InstrGroup := s.store[s.pc]?

/-! ### Bytes of a data word -/

/-- Byte `k` of a word: bits `8k+7 .. 8k` (R17). -/
def wordByte (k : Nat) (v : Word) : Byte := v.extractLsb' (8 * k) 8

/-! ### Faults -/

/-- `raise F(pc, word)` (R92): status FAULT and the record of R91; `acc`, `mem` and `pc` stay. The word is that of the
group at `pc` (R91), so its ignored bits are recorded too. Where `pc` names no group there is no word to record, and
the model stops by name. There is no return from a fault (R93): only reset leaves FAULT (`State.applyReset` in Ports.lean). -/
def raise (cause : FaultCause) (s : State) : Host.Outcome State Fault Refusal :=
  match s.currentGroup with
  | some g => .next { s with status := .fault, faultRecord := some ⟨cause, s.pc, g.word⟩ }
  | none => .fault .pcOutsideStore

end Sys2Proof.Machine
end

