-- ==== Sys2Proof/Machine/Operands.lean ====
section
/-! DEFINITION. How the instructions form their data addresses and read their operands. -/

namespace Sys2Proof.Machine

/-- An address that may be `2^A` or more, under `ADDR_OOB_POLICY` (R12, R34, R87): itself if it is in range, else its
remainder under WRAP, and none under FAULT, where the instruction raises ADDRESS_OUT_OF_RANGE. -/
def State.boundedAddress (t : Nat) (s : State) : Option Nat :=
  if t < s.config.memWords then some t
  else match s.config.addrOobPolicy with
    | .wrap => some (t % s.config.memWords)
    | .fault => none

/-- The address ST writes (R34, R81). -/
def State.stAddress (addr : BitVec 15) (s : State) : Option Nat := s.boundedAddress addr.toNat

/-- The address LDR reads: `(acc + shift) mod 2^A`, without wrapping before the remainder (R15, R82). -/
def State.ldrAddress (shift : BitVec 16) (s : State) : Nat :=
  (s.acc.toNat + shift.toNat) % s.config.memWords

/-- `bswap_address(acc)`, the address BSWAP reads under MEM_AT_ACC (R87). -/
def State.bswapAddress (s : State) : Option Nat := s.boundedAddress s.acc.toNat

/-- The word BSWAP swaps, by `BSWAP_SOURCE`; none where its address raises ADDRESS_OUT_OF_RANGE (R6, R86). -/
def State.bswapOperand (s : State) : Option Word :=
  match s.config.bswapSource with
  | .acc => some s.acc
  | .memAtAcc => s.bswapAddress.map fun a => s.memRead a

/-- `bswap_32`: the bytes of a word in reverse order (R85). -/
def bswap32 (v : Word) : Word := wordByte 0 v ++ wordByte 1 v ++ wordByte 2 v ++ wordByte 3 v

end Sys2Proof.Machine
end

