-- ==== Sys2Proof/Machine/ByteSwap.lean ====
section
/-! DEFINITION. BSWAP (42_byte_swap.md). -/

namespace Sys2Proof.Machine

/-- BSWAP: `acc <- bswap_32(x)` under either source, memory never written, or ADDRESS_OUT_OF_RANGE (R86, R87). -/
def execBswap (s : State) : Host.Outcome State Fault Refusal :=
  match s.bswapOperand with
  | some x => .next (s.setAcc (bswap32 x)).advance
  | none => raise .addressOutOfRange s

end Sys2Proof.Machine
end

