-- ==== Sys2Proof/Machine/LoadStore.lean ====
section
/-! DEFINITION. LDC, ST and LDR (41_load_store.md). Each meaning runs inside a step with `status = RUN` and `pc < N`. -/

namespace Sys2Proof.Machine

/-- LDC: `acc <- zext(imm)` (R80). -/
def execLdc (imm : BitVec 28) (s : State) : Host.Outcome State Fault Refusal :=
  .next (s.setAcc (imm.setWidth 32)).advance

/-- ST: `MemWrite(a, acc)`, or ADDRESS_OUT_OF_RANGE with nothing written (R81). -/
def execSt (addr : BitVec 15) (s : State) : Host.Outcome State Fault Refusal :=
  match s.stAddress addr with
  | some a => .next (s.memWrite a s.acc).advance
  | none => raise .addressOutOfRange s

/-- LDR: `acc <- MemRead((acc + shift) mod 2^A)`, the old `acc` the base (R82). -/
def execLdr (shift : BitVec 16) (s : State) : Host.Outcome State Fault Refusal :=
  .next (s.setAcc (s.memRead (s.ldrAddress shift))).advance

end Sys2Proof.Machine
end

