-- ==== Sys2Proof/Machine/Dispatch.lean ====
section
/-! DEFINITION. The dispatch over the known kinds, with no default arm (R72). The kind UNKNOWN is no instruction; the
cycle runs it (`runUnknown`, R74). -/

namespace Sys2Proof.Machine

def exec (i : Instr) (s : State) : Host.Outcome State Fault Refusal :=
  match i with
  | .ldc imm => Sys2Proof.Machine.execLdc imm s
  | .st addr => Sys2Proof.Machine.execSt addr s
  | .ldr shift => Sys2Proof.Machine.execLdr shift s
  | .bswap => Sys2Proof.Machine.execBswap s

end Sys2Proof.Machine
end

