-- ==== Sys2Proof/Machine/Cycle.lean ====
section
/-! DEFINITION. The parts of a step (40_execution_cycle.md): fetch and decode, the unknown opcode, and placing a word
where the next fetch reads it. -/

namespace Sys2Proof.Machine

/-- The kind UNKNOWN, by `UNKNOWN_OPCODE_POLICY`: the fault, or a no-op that advances `pc` (R74). -/
def runUnknown (s : State) : Host.Outcome State Fault Refusal :=
  match s.config.unknownOpcodePolicy with
  | .fault => raise .unknownOpcode s
  | .skip => .next s.advance

/-- Runs what the decoder selected (R71, R72). -/
def runSelected (sel : Selected) (s : State) : Host.Outcome State Fault Refusal :=
  match sel with
  | .instr i => exec i s
  | .unknown => runUnknown s

/-- `fetch_decode_execute(pc)` (R71). Where `pc` names no group, which R24 excludes, the model stops by name. -/
def fetchDecodeExecute (s : State) : Host.Outcome State Fault Refusal :=
  match s.currentGroup with
  | some g => runSelected (decode s.config g).selected s
  | none => .fault .pcOutsideStore

/-- A step while `status = RUN` (R70): the end of the run at `pc = N`, else one group. -/
def runStep (s : State) : Host.Outcome State Fault Refusal :=
  if s.pc = s.numGroups then .next s.finish else fetchDecodeExecute s

/-- The store with `g` as group `i`. Where the store is shorter, groups of zeros fill it up to `i`. -/
def placeGroup (store : List InstrGroup) (i : Nat) (g : InstrGroup) : List InstrGroup :=
  store.take i ++ List.replicate (i - store.length) InstrGroup.zero ++ g :: store.drop (i + 1)

end Sys2Proof.Machine
end

