-- ==== Sys2Proof/Machine/Step.lean ====
section
/-! DEFINITION. The step of the core (R70), and a word placed where the next step fetches it. -/

namespace Sys2Proof.Machine

/-- One step: only `status = RUN` has one (R70). -/
def step (s : State) : Host.Outcome State Fault Refusal :=
  match s.status with
  | .run => runStep s
  | .done => .fault .noStepInDone
  | .fault => .fault .noStepInFault

/-- `s` with the word at the `pc`, in RUN, so that the next step fetches and runs it (log entry 13). It stands for the
host's load, which on the machine happens at reset (R100, R101). -/
def State.withFetchWord (s : State) (nbits w : Nat) : State :=
  { s with store := placeGroup s.store s.pc (tableGroup nbits w), status := .run, faultRecord := none }

end Sys2Proof.Machine
end

