-- ==== Sys2Proof/Machine/Assembler.lean ====
section
/-! DEFINITION. The assembler (R62 to R69). It is surrounding software and no part of the machine (R4, R30): it only
makes byte streams, and nothing the machine does depends on it. Source text is a list of characters. -/

namespace Sys2Proof.Asm

/-- A variable name: a token with no white space and no `;` (R62). -/
abbrev Name := List Char

/-- A source line after parsing (R63 to R65). -/
inductive Stmt where
  | set (var : Name) (k : Int)
  | mov (dst src : Name)
  | bswap
  deriving DecidableEq, Repr

/-- The assembly errors (R68). R66 names none for a variable beyond the address space; `addressSpaceExhausted` is the
model's name (log entry 12). -/
inductive ErrorKind where
  | unknownInstruction
  | malformedOperand
  | undeclaredVariable
  | addressSpaceExhausted
  deriving DecidableEq, Repr

/-- An error with the offending line, counted from 1 (R68; the counting is log entry 12). -/
structure Error where
  kind : ErrorKind
  line : Nat
  deriving DecidableEq, Repr

/-- One emitted instruction, which is also a record of the optional trace (R69). DESIGN CHOICE (log entry 16): R69's
`operand?` says neither when the operand is absent nor whether it is the value before or after the reduction modulo
`2^28`; the model always records it, before the reduction. -/
structure Emitted where
  opcode : Nat
  operand : Int
  bytes : InstrGroup
  deriving DecidableEq, Repr

/-- The assembler's own state: the names in the order of their addresses (R66), `tracked` (R67) and what is emitted. -/
structure AsmState where
  symbols : List Name
  tracked : Int
  emitted : List Emitted
  deriving DecidableEq, Repr

/-- The state at the start of assembly: no names, and `tracked` is 0 (R66, R67). -/
def AsmState.start : AsmState := ⟨[], 0, []⟩

/-! ### Lines (R62) -/

/-- The tokens of a text between white space; `cur` is the token being read, last character first. -/
def tokens : List Char → List Char → List (List Char)
  | cur, [] => if cur.isEmpty then [] else [cur.reverse]
  | cur, ch :: rest =>
    if ch.isWhitespace then
      (if cur.isEmpty then tokens [] rest else cur.reverse :: tokens [] rest)
    else tokens (ch :: cur) rest

/-- The lines of a text; `cur` is the line being read, last character first. -/
def splitLines : List Char → List Char → List (List Char)
  | cur, [] => [cur.reverse]
  | cur, ch :: rest => if ch = '\n' then cur.reverse :: splitLines [] rest else splitLines (ch :: cur) rest

/-- A decimal number with no sign: one digit or more. -/
def parseNat (ds : List Char) : Option Nat :=
  if ds.isEmpty || !ds.all Char.isDigit then none
  else some (ds.foldl (fun n d => 10 * n + (d.toNat - '0'.toNat)) 0)

/-- An integer literal: decimal, with an optional `+` or `-` before it (R62). -/
def parseInt : List Char → Option Int
  | '+' :: ds => (parseNat ds).map fun n => (n : Int)
  | '-' :: ds => (parseNat ds).map fun n => -(n : Int)
  | ds => (parseNat ds).map fun n => (n : Int)

/-- The tokens of a line without its comment (R62). -/
def lineTokens (line : List Char) : List (List Char) := tokens [] (line.takeWhile fun ch => ch != ';')

/-- A line's tokens as a statement, none for an empty line (R62, R68). -/
def parseTokens : List (List Char) → Except ErrorKind (Option Stmt)
  | [] => .ok none
  | mnemonic :: args =>
    if mnemonic = ['s', 'e', 't'] then
      match args with
      | [var, lit] =>
        match parseInt lit with
        | some k => .ok (some (.set var k))
        | none => .error .malformedOperand
      | _ => .error .malformedOperand
    else if mnemonic = ['m', 'o', 'v'] then
      match args with
      | [dst, src] => .ok (some (.mov dst src))
      | _ => .error .malformedOperand
    else if mnemonic = ['b', 's', 'w', 'a', 'p'] then
      match args with
      | [] => .ok (some .bswap)
      | _ => .error .malformedOperand
    else .error .unknownInstruction

/-! ### Symbols (R66) and expansions (R63 to R65) -/

/-- The address bound to a name: its place among the distinct names (R66). -/
def AsmState.resolve (name : Name) (st : AsmState) : Option Nat := st.symbols.idxOf? name

/-- The address of a name, bound to the next free address if it has none; none where that would be `2^A` (R66). -/
def AsmState.resolveOrDeclare (c : Config) (name : Name) (st : AsmState) : Option (Nat × AsmState) :=
  match st.resolve name with
  | some a => some (a, st)
  | none =>
    if st.symbols.length < c.memWords then some (st.symbols.length, { st with symbols := st.symbols ++ [name] })
    else none

/-- `emit encode(op, v)`. The bytes are those of R48. The recorded operand is `v` itself, unreduced, and 0 for `bswap`,
whose emission R65 writes `encode(0x2, 0)`: DESIGN CHOICE (log entry 16). -/
def AsmState.emit (op : Nat) (v : Int) (st : AsmState) : AsmState :=
  { st with emitted := st.emitted ++ [⟨op, v, encodeInt op v⟩] }

/-- `tracked <- v` (R67). -/
def AsmState.track (v : Int) (st : AsmState) : AsmState := { st with tracked := v }

/-- The shift of a `mov`: `(address(src) - tracked) mod 2^A` (R64). -/
def movShift (c : Config) (srcAddress : Nat) (tracked : Int) : Int := ((srcAddress : Int) - tracked) % (c.memWords : Int)

/-- `ST` to a name's address, bound if need be, and `tracked <- v` after it: the end of both expansions (R63, R64). -/
def AsmState.storeTo (c : Config) (name : Name) (v : Int) (st : AsmState) : Except ErrorKind AsmState :=
  match st.resolveOrDeclare c name with
  | some (a, st') => .ok ((st'.emit 0x9 a).track v)
  | none => .error .addressSpaceExhausted

/-- The expansion of a statement (R63, R64, R65). -/
def expand (c : Config) (st : AsmState) : Stmt → Except ErrorKind AsmState
  | .set var k => (st.emit 0x8 k).storeTo c var k
  | .mov dst src =>
    match st.resolve src with
    | some a => (st.emit 0xA (movShift c a st.tracked)).storeTo c dst a
    | none => .error .undeclaredVariable
  | .bswap => .ok (st.emit 0x2 0)

/-! ### The assembly pass (R62, R68, R69) -/

/-- One line. -/
def assembleLine (c : Config) (st : AsmState) (line : List Char) : Except ErrorKind AsmState :=
  match parseTokens (lineTokens line) with
  | .ok (some stmt) => expand c st stmt
  | .ok none => .ok st
  | .error e => .error e

/-- The lines in order, from line number `n`; the first error ends the pass (R68). -/
def assembleLines (c : Config) : Nat → AsmState → List (List Char) → Except Error AsmState
  | _, st, [] => .ok st
  | n, st, line :: rest =>
    match assembleLine c st line with
    | .ok st' => assembleLines c (n + 1) st' rest
    | .error e => .error ⟨e, n⟩

/-- The emitted instructions of a source text, which are the optional trace too (R69), or the first error, with
nothing emitted (R68). -/
def assemble (c : Config) (source : List Char) : Except Error (List Emitted) :=
  (assembleLines c 1 .start (splitLines [] source)).map fun st => st.emitted

/-- The byte stream of a source text: the emitted groups in order, and zero bytes where assembly fails (R68, R69). -/
def assembleStream (c : Config) (source : List Char) : List Byte :=
  match assemble c source with
  | .ok out => streamOf (out.map fun e => e.bytes)
  | .error _ => []

end Sys2Proof.Asm
end

