-- ==== Sys2Proof/Machine/Flags.lean ====
section
/-! DEFINITION. The machine has no status flags and no condition codes (R27), so no instruction computes one. What it
has is the run status and the fault cause, whose numbers at the core's ports are here. -/

namespace Sys2Proof.Machine

/-- The port `status`: 0 RUN, 1 DONE, 2 FAULT (R79). -/
def Status.code : Status → BitVec 2
  | .run => 0
  | .done => 1
  | .fault => 2

/-- The port `fault_cause`: the codes of R90. -/
def FaultCause.code : FaultCause → BitVec 2
  | .unknownOpcode => 1
  | .addressOutOfRange => 2

end Sys2Proof.Machine
end

