-- ==== Sys2Proof/Machine/Ports.lean ====
section
/-! DEFINITION. What the outside sees and does: load and reset (R100, R101), the run (R75, R76), its output (R77, R107)
and the core's ports (R79). -/

namespace Sys2Proof.Machine

/-! ### Load and reset -/

/-- Load and start with given parameters (R100, R101, R107): the reset state with the stream's groups. A program longer
than `MAX_WORDS` is refused (R14, I15). -/
def boot (c : Config) (stream : List Byte) : Host.Outcome State Fault Refusal :=
  if c.fits (groupsOf stream).length then .next (State.initial c (groupsOf stream)) else .refused .programTooLong

/-- The input `rst` in any status, with the stream the host supplies: a new run, of which only the parameters are the
old machine's (R29, R100). -/
def State.applyReset (stream : List Byte) (s : State) : Host.Outcome State Fault Refusal := boot s.config stream

/-! ### The run -/

/-- At most `k` steps, until no step exists (R76). -/
def runFor : Nat → State → State
  | 0, s => s
  | k + 1, s =>
    match step s with
    | .next t => runFor k t
    | .fault _ => s
    | .refused _ => s

/-- The end of the run from a state: a step for each group that is left, and the DONE step (R75, R76). -/
def State.runToEnd (s : State) : State := runFor (s.numGroups - s.pc + 1) s

/-! ### The output -/

/-- What a run outputs (R77): every value an unsigned integer, memory in address order. -/
inductive Observation where
  | done (acc : Nat) (mem : List Nat)
  | fault (record : FaultRecord)
  deriving DecidableEq, Repr

/-- The output of a run that has ended (R77, R107). While the run goes on the spec gives no output, and `none` is a
DESIGN CHOICE (log entry 8). -/
def State.observe (s : State) : Option Observation :=
  match s.status with
  | .run => none
  | .done => some (.done s.acc.toNat ((List.range s.config.memWords).map fun a => (s.memRead a).toNat))
  | .fault => s.faultRecord.map .fault

/-- `execute(byte_stream)` of the source (R79): load, reset, run and collect; none where the load is refused. -/
def execute (c : Config) (stream : List Byte) : Option Observation :=
  match boot c stream with
  | .next s => s.runToEnd.observe
  | .fault _ => none
  | .refused _ => none

/-! ### The core's ports -/

/-- The width of `n_words`, `imem_index` and `fault_index` for a given `MAX_WORDS`: `ceil(log2(MAX_WORDS + 1))` (R14, R79). -/
def indexWidth (maxWords : Nat) : Nat := if maxWords = 0 then 0 else Nat.log2 maxWords + 1

/-- The outputs of the core (R79). A port the spec gives no meaning at a moment shows none then (I13, I14; log entry 8). -/
structure CorePorts where
  imemIndex : Option Nat
  status : BitVec 2
  accOut : Option Word
  faultCause : Option (BitVec 2)
  faultIndex : Option Nat
  faultWord : Option Word
  deriving DecidableEq, Repr

/-- The outputs of the core in a state (R79). `imem_index` is the group being fetched, so none where no group is. -/
def State.ports (s : State) : CorePorts where
  imemIndex := if s.status = .run ∧ s.pc < s.numGroups then some s.pc else none
  status := s.status.code
  accOut := if s.status = .done then some s.acc else none
  faultCause := s.faultRecord.map fun r => r.cause.code
  faultIndex := s.faultRecord.map fun r => r.index
  faultWord := s.faultRecord.map fun r => r.word

/-- The port `host_rdata` for a `host_addr` (R79): meaningful in DONE only, and `host_addr` has `A` bits. -/
def State.hostRdata (hostAddr : Nat) (s : State) : Option Word :=
  if s.status = .done ∧ hostAddr < s.config.memWords then some (s.memRead hostAddr) else none

end Sys2Proof.Machine
end

