-- ==== Sys2Proof/Safety.lean ====
section
/-! DEFINITION. The words claims are made in: the state invariant, and when a fault is due. -/

namespace Sys2Proof.Machine

/-- R90's conditions, read from the bits of the group at `pc` and not from the decoder: which fault the spec gives a
group `g` in a state. -/
def State.FaultDue (s : State) (g : InstrGroup) : FaultCause → Prop
  | .unknownOpcode =>
    s.config.unknownOpcodePolicy = .fault ∧
      g.b0.toNat % 16 ≠ 0x2 ∧ g.b0.toNat % 16 ≠ 0x8 ∧ g.b0.toNat % 16 ≠ 0x9 ∧ g.b0.toNat % 16 ≠ 0xA
  | .addressOutOfRange =>
    s.config.addrOobPolicy = .fault ∧
      ((g.b0.toNat % 16 = 0x9 ∧ 2 ^ s.config.a ≤ g.word.toNat / 2 ^ 4 % 2 ^ 15) ∨
        (g.b0.toNat % 16 = 0x2 ∧ s.config.bswapSource = .memAtAcc ∧ 2 ^ s.config.a ≤ s.acc.toNat))

/-- What the status says of the rest of the state (R25, R26, R70, R91): no record outside FAULT, DONE only at `pc = N`,
and in FAULT the record of the group at `pc`, with a cause that is due there. -/
def State.StatusConsistent (s : State) : Prop :=
  match s.status with
  | .run => s.faultRecord = none
  | .done => s.faultRecord = none ∧ s.pc = s.numGroups
  | .fault => ∃ g cause, s.store[s.pc]? = some g ∧ s.faultRecord = some ⟨cause, s.pc, g.word⟩ ∧ s.FaultDue g cause

/-- The invariant of the machine: memory in canonical form within `2^A` words (R22), `0 <= pc <= N` (R24), the program
within `MAX_WORDS` (R14), and a status the rest of the state agrees with. -/
structure State.Inv (s : State) : Prop where
  memWf : Memory.wf s.config.memWords s.mem
  pcInRange : s.pc ≤ s.numGroups
  programFits : s.config.fits s.numGroups = true
  statusConsistent : s.StatusConsistent

/-- A safe run: from this state the machine reaches DONE, so its output is the accumulator and the memory (R77). -/
def State.Completes (s : State) : Prop := s.runToEnd.status = .done

end Sys2Proof.Machine
end

