-- ==== Sys2Proof/Certificates/Slice0/Obligations.lean ====
section
/-! DEFINITION. The statements for the provers. Each docstring names the rule of spec/ it formalises. The parameters
stand in the state, so a statement about every state holds for every value of `A`, `BSWAP_SOURCE`, `LDC_WIDTH` and the
two policies. The field `config` is the model's own: wherever a statement says that it stays as it was, that clause is the
MODEL'S CHOICE of log entry 1 and no rule's. -/

open Sys2Proof Sys2Proof.Machine

/-! ### The codec (30_encoding.md) -/

/-- R46, R48, R49: the four bytes of `encode(op, v)` for any opcode number and any integer operand. -/
def Obligations.EncodePacksFieldAndOpcode : Prop :=
  (∀ (op : Nat) (v : Int),
    (encodeInt op v).b0.toNat = (v % 2 ^ 28).toNat % 2 ^ 4 * 2 ^ 4 + op % 2 ^ 4 ∧
    (encodeInt op v).b1.toNat = (v % 2 ^ 28).toNat / 2 ^ 4 % 2 ^ 8 ∧
    (encodeInt op v).b2.toNat = (v % 2 ^ 28).toNat / 2 ^ 12 % 2 ^ 8 ∧
    (encodeInt op v).b3.toNat = (v % 2 ^ 28).toNat / 2 ^ 20 % 2 ^ 8) ∧
  ∀ op : Opcode, encodeInt op.toNat 0 = ⟨op.setWidth 8, 0, 0, 0⟩

/-- R47: the word of a group is little-endian, and is `field * 16 + opcode`. -/
def Obligations.WordIsLittleEndian : Prop :=
  ∀ g : InstrGroup,
    g.word = g.b3 ++ g.b2 ++ g.b1 ++ g.b0 ∧
    g.word.toNat = g.b0.toNat + 2 ^ 8 * g.b1.toNat + 2 ^ 16 * g.b2.toNat + 2 ^ 24 * g.b3.toNat ∧
    g.word.toNat = g.field.toNat * 16 + g.opcode.toNat

/-- R50, R51: the opcode is the low four bits of the word, and each opcode reads the low bits of the field. -/
def Obligations.DecodeReadsLowFieldBits : Prop :=
  ∀ (c : Config) (g : InstrGroup),
    (decode c g).opcode.toNat = g.word.toNat % 2 ^ 4 ∧
    (g.word.toNat % 2 ^ 4 = 0x8 → ∃ imm : BitVec 28, (decode c g).selected = .instr (.ldc imm) ∧
      imm.toNat = g.word.toNat / 2 ^ 4 % 2 ^ c.ldcWidth.bits) ∧
    (g.word.toNat % 2 ^ 4 = 0x9 → ∃ addr : BitVec 15, (decode c g).selected = .instr (.st addr) ∧
      addr.toNat = g.word.toNat / 2 ^ 4 % 2 ^ 15) ∧
    (g.word.toNat % 2 ^ 4 = 0xA → ∃ shift : BitVec 16, (decode c g).selected = .instr (.ldr shift) ∧
      shift.toNat = g.word.toNat / 2 ^ 4 % 2 ^ c.a) ∧
    (g.word.toNat % 2 ^ 4 = 0x2 → (decode c g).selected = .instr .bswap) ∧
    (g.word.toNat % 2 ^ 4 ∉ [0x2, 0x8, 0x9, 0xA] → (decode c g).selected = .unknown)

/-- R52, R60: `dec_known` and `dec_kind` report the kind, and the operand port of that kind shows the operand. -/
def Obligations.DecoderPortsReportDecode : Prop :=
  ∀ (c : Config) (g : InstrGroup),
    ((dz4Decode c g).decKnown = true ↔ g.opcode.toNat ∈ [0x2, 0x8, 0x9, 0xA]) ∧
    ((dz4Decode c g).decKnown = false ↔ (dz4Decode c g).decKind = 0) ∧
    (∀ imm, (decode c g).selected = .instr (.ldc imm) →
      (dz4Decode c g).decKind = 1 ∧ (dz4Decode c g).decImm = imm) ∧
    (∀ addr, (decode c g).selected = .instr (.st addr) →
      (dz4Decode c g).decKind = 2 ∧ (dz4Decode c g).decAddr = addr) ∧
    (∀ shift, (decode c g).selected = .instr (.ldr shift) →
      (dz4Decode c g).decKind = 3 ∧ (dz4Decode c g).decShift = shift) ∧
    ((decode c g).selected = .instr .bswap → (dz4Decode c g).decKind = 4)

/-- R60: the encoder's ports carry the bytes of the word `enc_operand ++ enc_opcode`, and its bytes decode to it. -/
def Obligations.EncoderPortsCarryTheWord : Prop :=
  ∀ (c : Config) (op : Opcode) (f : Field),
    let e := dz4Encode op f
    let d := dz4Decode c ⟨e.encB0, e.encB1, e.encB2, e.encB3⟩
    d.decWord = e.encWord ∧ d.decOpcode = op ∧ d.decField = f ∧
    e.encWord.toNat = e.encB0.toNat + 2 ^ 8 * e.encB1.toNat + 2 ^ 16 * e.encB2.toNat + 2 ^ 24 * e.encB3.toNat

/-- R54: two groups that differ only in field bits their opcode does not read do the same, but for the recorded word. -/
def Obligations.UnreadFieldBitsNeverMatter : Prop :=
  ∀ (s : State) (g g' : InstrGroup), s.status = .run → s.store[s.pc]? = some g → g'.opcode = g.opcode →
    (g.opcode.toNat = 0x8 → g'.field.toNat % 2 ^ s.config.ldcWidth.bits = g.field.toNat % 2 ^ s.config.ldcWidth.bits) →
    (g.opcode.toNat = 0x9 → g'.field.toNat % 2 ^ 15 = g.field.toNat % 2 ^ 15) →
    (g.opcode.toNat = 0xA → g'.field.toNat % 2 ^ s.config.a = g.field.toNat % 2 ^ s.config.a) →
    ∃ t t' : State, step s = .next t ∧ step { s with store := s.store.set s.pc g' } = .next t' ∧
      t'.acc = t.acc ∧ t'.mem = t.mem ∧ t'.pc = t.pc ∧ t'.status = t.status ∧ t'.config = t.config ∧
      (t'.faultRecord.map fun r => (r.cause, r.index)) = (t.faultRecord.map fun r => (r.cause, r.index))

/-- R57: decoding an encoding gives the instruction back: for every well-formed instruction, for `encode(op, v)` with
`v` in the width of each opcode, and for BSWAP with any operand. -/
def Obligations.DecodeOfEncode : Prop :=
  (∀ (c : Config) (i : Instr), i.wf c = true → decode c (encode i) = ⟨i.opcode, .instr i⟩) ∧
  (∀ (c : Config) (v : Nat), v < 2 ^ c.ldcWidth.bits →
    decode c (encodeInt 0x8 v) = ⟨0x8, .instr (.ldc (BitVec.ofNat 28 v))⟩) ∧
  (∀ (c : Config) (v : Nat), v < 2 ^ 15 → decode c (encodeInt 0x9 v) = ⟨0x9, .instr (.st (BitVec.ofNat 15 v))⟩) ∧
  (∀ (c : Config) (v : Nat), v < 2 ^ c.a →
    decode c (encodeInt 0xA v) = ⟨0xA, .instr (.ldr (BitVec.ofNat 16 v))⟩) ∧
  (∀ (c : Config) (v : Int), decode c (encodeInt 0x2 v) = ⟨0x2, .instr .bswap⟩)

/-- R58: the codec loses no bit of the word, in either direction. -/
def Obligations.CodecLosesNoBit : Prop :=
  (∀ (o : Nat) (v : Int), o < 16 →
    (encodeInt o v).opcode.toNat = o ∧ ((encodeInt o v).field.toNat : Int) = v % 2 ^ 28) ∧
  ∀ g : InstrGroup, encodeField g.opcode g.field = g

/-- Words written out from R51 and R55 (95_test_vectors.md section 2.2) decode to the instructions they stand for. -/
def Obligations.WrittenWordsDecode : Prop :=
  (decode Config.p11 ⟨0x78, 0x56, 0x34, 0x12⟩).selected = .instr (.ldc 0x1234567) ∧
  (decode Config.p11 ⟨0xF8, 0xFF, 0xFF, 0xFF⟩).selected = .instr (.ldc 0x7FFFFFF) ∧
  (decode { Config.p11 with ldcWidth := .w28 } ⟨0xF8, 0xFF, 0xFF, 0xFF⟩).selected = .instr (.ldc 0xFFFFFFF) ∧
  (decode Config.p11 ⟨0x59, 0x00, 0xF8, 0xFF⟩).selected = .instr (.st 5) ∧
  (decode Config.p16 ⟨0xF9, 0xFF, 0x07, 0x00⟩).selected = .instr (.st 0x7FFF) ∧
  (decode Config.p11 ⟨0xAA, 0xBB, 0xCC, 0xDD⟩).selected = .instr (.ldr 0x3BA) ∧
  (decode Config.p16 ⟨0xAA, 0xBB, 0xCC, 0xDD⟩).selected = .instr (.ldr 0xCBBA) ∧
  (decode Config.p11 ⟨0x12, 0x34, 0x56, 0x78⟩).selected = .instr .bswap ∧
  (decode Config.p11 ⟨0x15, 0xEF, 0xCD, 0xAB⟩).selected = .unknown

/-- R39 (with R38's numbering): group `i` is the bytes `4i .. 4i+3` of the stream, with 0x00 for a byte past its end. -/
def Obligations.StreamIsCutIntoPaddedGroups : Prop :=
  ∀ stream : List Byte,
    (groupsOf stream).length = (stream.length + 3) / 4 ∧
    ∀ i : Nat, i < (stream.length + 3) / 4 →
      (groupsOf stream)[i]? = some ⟨stream.getD (4 * i) 0, stream.getD (4 * i + 1) 0, stream.getD (4 * i + 2) 0,
        stream.getD (4 * i + 3) 0⟩

/-! ### Reset (10_state.md, 70_reset_and_hazards.md) -/

/-- R28: every piece of state after reset, in whatever state reset is applied. -/
def Obligations.ResetSetsEveryStateElement : Prop :=
  ∀ (s : State) (stream : List Byte), s.config.fits ((stream.length + 3) / 4) = true →
    ∃ t : State, s.applyReset stream = .next t ∧ t.acc = 0 ∧ (∀ a : Nat, a < 2 ^ s.config.a → t.memRead a = 0) ∧
      t.store = groupsOf stream ∧ t.numGroups = (stream.length + 3) / 4 ∧ t.pc = 0 ∧ t.status = .run ∧
      t.faultRecord = none ∧ t.config = s.config

/-- R14, I15: a program of more than `MAX_WORDS` groups is refused. -/
def Obligations.TooLongProgramIsRefused : Prop :=
  ∀ (s : State) (stream : List Byte) (m : Nat), s.config.maxWords = some m → m < (stream.length + 3) / 4 →
    s.applyReset stream = .refused .programTooLong

/-- R29: no state of one run carries over to the next: reset forgets all but the parameters. -/
def Obligations.NoStateSurvivesReset : Prop :=
  ∀ (s s' : State) (stream : List Byte), s.config = s'.config → s.applyReset stream = s'.applyReset stream

/-- The host's reset state is the load of the empty stream (MODEL'S CHOICE of the stream and of profile P16, log
entries 1 and 2), and its one step ends the run (R38, R70). -/
def Obligations.ResetStateIsTheEmptyRun : Prop :=
  boot Config.ofReset [] = .next State.reset ∧
  step State.reset = .next { State.reset with status := .done } ∧
  core.reset = State.reset

/-- The invariant holds at the start of every run, and of `State.reset`. -/
def Obligations.InvariantHoldsAfterReset : Prop :=
  (∀ (c : Config) (stream : List Byte) (s : State), boot c stream = .next s → s.Inv) ∧ State.reset.Inv

/-- Every step keeps the invariant: canonical memory within `2^A` words (R22), `0 <= pc <= N` (R24), a fault record
exactly in FAULT, of the group at `pc` and with a cause that is due (R25, R26, R91), and DONE only at `pc = N` (R70). -/
def Obligations.StepKeepsInvariant : Prop :=
  ∀ s t : State, s.Inv → step s = .next t → t.Inv

/-! ### LDC, ST and LDR (41_load_store.md) -/

/-- R80, R84: LDC completes in every state, loads its operand, and changes nothing else but `pc`. MODEL'S CHOICE (log
entry 9): it is said of every 28-bit operand, so under `LDC_WIDTH = 27` also of an ill-formed one of `2^27` or more, which
no word decodes to and to which R80 gives no effect; the model loads it whole. -/
def Obligations.LdcLoadsImmediate : Prop :=
  ∀ (imm : BitVec 28) (s : State), ∃ t : State, exec (.ldc imm) s = .next t ∧
    t.acc.toNat = imm.toNat ∧ t.pc = s.pc + 1 ∧
    t.config = s.config ∧ t.store = s.store ∧ t.status = s.status ∧ t.faultRecord = s.faultRecord ∧
    ∀ a : Nat, t.memRead a = s.memRead a

/-- R80: a step on a group with opcode 0x8, from the bits of its word. -/
def Obligations.StepOnLdcGroup : Prop :=
  ∀ (s : State) (g : InstrGroup), s.status = .run → s.store[s.pc]? = some g → g.word.toNat % 2 ^ 4 = 0x8 →
    step s = .next { s with
      acc := BitVec.ofNat 32 (g.word.toNat / 2 ^ 4 % 2 ^ s.config.ldcWidth.bits)
      pc := s.pc + 1 }

/-- R81, R84: where its address is in range or wraps, ST completes, stores `acc` at the address the model forms, and
changes nothing else but `pc`. -/
def Obligations.StStoresAccumulator : Prop :=
  ∀ (addr : BitVec 15) (s : State), Memory.wf s.config.memWords s.mem →
    (addr.toNat < 2 ^ s.config.a ∨ s.config.addrOobPolicy = .wrap) →
    ∃ (a : Nat) (t : State), s.stAddress addr = some a ∧ a = addr.toNat % 2 ^ s.config.a ∧
      exec (.st addr) s = .next t ∧ t.memRead a = s.acc ∧ (∀ b : Nat, b ≠ a → t.memRead b = s.memRead b) ∧
      t.pc = s.pc + 1 ∧ t.acc = s.acc ∧
      t.config = s.config ∧ t.store = s.store ∧ t.status = s.status ∧ t.faultRecord = s.faultRecord

/-- R34: the address ST forms, what it does where there is none, and which addresses it cannot reach under `A = 16`
although LDR can. -/
def Obligations.StoreAddressFormation : Prop :=
  ∀ (addr : BitVec 15) (s : State),
    (addr.toNat < 2 ^ s.config.a → s.stAddress addr = some addr.toNat) ∧
    (2 ^ s.config.a ≤ addr.toNat → s.config.addressWidth = .a11) ∧
    (2 ^ s.config.a ≤ addr.toNat → s.config.addrOobPolicy = .wrap →
      s.stAddress addr = some (addr.toNat % 2 ^ s.config.a)) ∧
    (2 ^ s.config.a ≤ addr.toNat → s.config.addrOobPolicy = .fault → s.stAddress addr = none ∧
      ∀ g, s.store[s.pc]? = some g → ∃ t : State, exec (.st addr) s = .next t ∧ t.status = .fault ∧
        t.faultRecord = some ⟨.addressOutOfRange, s.pc, g.word⟩ ∧ t.mem = s.mem) ∧
    (s.config.addressWidth = .a16 → ∀ b : Nat, 2 ^ 15 ≤ b →
      (∀ t : State, exec (.st addr) s = .next t → t.memRead b = s.memRead b) ∧
      (b < 2 ^ 16 → ∃ shift : BitVec 16, s.ldrAddress shift = b))

/-- R81: a step on a group with opcode 0x9, from the bits of its word. -/
def Obligations.StepOnStGroup : Prop :=
  ∀ (s : State) (g : InstrGroup), s.status = .run → s.store[s.pc]? = some g → g.word.toNat % 2 ^ 4 = 0x9 →
    (g.word.toNat / 2 ^ 4 % 2 ^ 15 < 2 ^ s.config.a →
      step s = .next { s with mem := s.mem.write (g.word.toNat / 2 ^ 4 % 2 ^ 15) s.acc, pc := s.pc + 1 }) ∧
    (2 ^ s.config.a ≤ g.word.toNat / 2 ^ 4 % 2 ^ 15 → s.config.addrOobPolicy = .wrap →
      step s = .next { s with
        mem := s.mem.write (g.word.toNat / 2 ^ 4 % 2 ^ 15 % 2 ^ s.config.a) s.acc, pc := s.pc + 1 }) ∧
    (2 ^ s.config.a ≤ g.word.toNat / 2 ^ 4 % 2 ^ 15 → s.config.addrOobPolicy = .fault →
      step s = .next { s with status := .fault, faultRecord := some ⟨.addressOutOfRange, s.pc, g.word⟩ })

/-- R82, R84: LDR completes in every state, loads the word at `(acc + shift) mod 2^A` of the old `acc`, and changes
nothing else but `pc`. MODEL'S CHOICE (log entry 9): it is said of every 16-bit operand, so under `A = 11` also of an
ill-formed one of `2^11` or more, which no word decodes to; the model adds it whole before the remainder. -/
def Obligations.LdrLoadsRelativeWord : Prop :=
  ∀ (shift : BitVec 16) (s : State), ∃ t : State, exec (.ldr shift) s = .next t ∧
    t.acc = s.memRead ((s.acc.toNat + shift.toNat) % 2 ^ s.config.a) ∧ t.pc = s.pc + 1 ∧
    t.config = s.config ∧ t.store = s.store ∧ t.status = s.status ∧ t.faultRecord = s.faultRecord ∧
    ∀ a : Nat, t.memRead a = s.memRead a

/-- R82: a step on a group with opcode 0xA, from the bits of its word. -/
def Obligations.StepOnLdrGroup : Prop :=
  ∀ (s : State) (g : InstrGroup), s.status = .run → s.store[s.pc]? = some g → g.word.toNat % 2 ^ 4 = 0xA →
    step s = .next { s with
      acc := s.memRead ((s.acc.toNat + g.word.toNat / 2 ^ 4 % 2 ^ s.config.a) % 2 ^ s.config.a)
      pc := s.pc + 1 }

/-- R83: the unsigned shift and the two's-complement `A`-bit shift give one address. -/
def Obligations.LdrShiftSignedOrUnsigned : Prop :=
  ∀ (shift : BitVec 16) (s : State), shift.toNat < 2 ^ s.config.a →
    (s.ldrAddress shift : Int) =
      ((s.acc.toNat : Int) +
        (if shift.toNat < 2 ^ (s.config.a - 1) then (shift.toNat : Int) else (shift.toNat : Int) - 2 ^ s.config.a)) %
        2 ^ s.config.a

/-- R82's corner cases (with R42): an LDR that follows an ST to the same address reads the stored value. -/
def Obligations.LdrAfterStReadsStoredValue : Prop :=
  ∀ (addr : BitVec 15) (shift : BitVec 16) (s : State) (a : Nat), Memory.wf s.config.memWords s.mem →
    s.stAddress addr = some a → s.ldrAddress shift = a →
    ∃ t u : State, exec (.st addr) s = .next t ∧ exec (.ldr shift) t = .next u ∧ u.acc = s.acc ∧ u.pc = s.pc + 2

/-! ### BSWAP (42_byte_swap.md) -/

/-- R85 (with R17's numbering): byte `k` of the result is byte `3 - k` of the operand. -/
def Obligations.BswapReversesBytes : Prop :=
  ∀ v : Word,
    bswap32 v = v.extractLsb' 0 8 ++ v.extractLsb' 8 8 ++ v.extractLsb' 16 8 ++ v.extractLsb' 24 8 ∧
    ∀ k : Nat, k < 4 →
      (wordByte k v).toNat = v.toNat / 2 ^ (8 * k) % 2 ^ 8 ∧ wordByte k (bswap32 v) = wordByte (3 - k) v

/-- R86, R87, R89: BSWAP completes under ACC, and under MEM_AT_ACC where its address is in range or wraps; it loads the
swapped operand and changes nothing else but `pc`. -/
def Obligations.BswapLoadsSwappedOperand : Prop :=
  ∀ s : State,
    (s.config.bswapSource = .acc ∨ s.acc.toNat < 2 ^ s.config.a ∨ s.config.addrOobPolicy = .wrap) →
    ∃ t : State, exec .bswap s = .next t ∧
      (s.config.bswapSource = .acc → t.acc = bswap32 s.acc) ∧
      (s.config.bswapSource = .memAtAcc → t.acc = bswap32 (s.memRead (s.acc.toNat % 2 ^ s.config.a))) ∧
      t.pc = s.pc + 1 ∧
      t.config = s.config ∧ t.store = s.store ∧ t.status = s.status ∧ t.faultRecord = s.faultRecord ∧
      ∀ a : Nat, t.memRead a = s.memRead a

/-- R86, R87: a step on a group with opcode 0x2, whatever its field. -/
def Obligations.StepOnBswapGroup : Prop :=
  ∀ (s : State) (g : InstrGroup), s.status = .run → s.store[s.pc]? = some g → g.word.toNat % 2 ^ 4 = 0x2 →
    (s.config.bswapSource = .acc → step s = .next { s with acc := bswap32 s.acc, pc := s.pc + 1 }) ∧
    (s.config.bswapSource = .memAtAcc → s.acc.toNat < 2 ^ s.config.a →
      step s = .next { s with acc := bswap32 (s.memRead s.acc.toNat), pc := s.pc + 1 }) ∧
    (s.config.bswapSource = .memAtAcc → 2 ^ s.config.a ≤ s.acc.toNat → s.config.addrOobPolicy = .wrap →
      step s = .next { s with acc := bswap32 (s.memRead (s.acc.toNat % 2 ^ s.config.a)), pc := s.pc + 1 }) ∧
    (s.config.bswapSource = .memAtAcc → 2 ^ s.config.a ≤ s.acc.toNat → s.config.addrOobPolicy = .fault →
      step s = .next { s with status := .fault, faultRecord := some ⟨.addressOutOfRange, s.pc, g.word⟩ })

/-- R88: the byte reversal is an involution, so under ACC two BSWAPs restore `acc`; under MEM_AT_ACC the second one
reads `mem[bswap(x) mod 2^A]`, and `acc` is not restored in general. -/
def Obligations.BswapTwice : Prop :=
  (∀ v : Word, bswap32 (bswap32 v) = v) ∧
  (∀ s : State, s.config.bswapSource = .acc →
    ∃ t u : State, exec .bswap s = .next t ∧ exec .bswap t = .next u ∧ u.acc = s.acc) ∧
  (∀ s : State, s.config.bswapSource = .memAtAcc → s.config.addrOobPolicy = .wrap →
    ∃ t u : State, exec .bswap s = .next t ∧ exec .bswap t = .next u ∧
      u.acc = bswap32 (s.memRead
        ((bswap32 (s.memRead (s.acc.toNat % 2 ^ s.config.a))).toNat % 2 ^ s.config.a))) ∧
  ∃ s t u : State, s.config.bswapSource = .memAtAcc ∧ exec .bswap s = .next t ∧ exec .bswap t = .next u ∧
    u.acc ≠ s.acc

/-! ### Frames (R84, R89) -/

/-- R84, R89: what each instruction leaves as it was, whenever it answers a next state. -/
def Obligations.InstructionFrames : Prop :=
  ∀ s t : State,
    (∀ imm, exec (.ldc imm) s = .next t → t.mem = s.mem ∧ t.store = s.store ∧ t.config = s.config ∧
      t.status = s.status ∧ t.faultRecord = s.faultRecord) ∧
    (∀ shift, exec (.ldr shift) s = .next t → t.mem = s.mem ∧ t.store = s.store ∧ t.config = s.config ∧
      t.status = s.status ∧ t.faultRecord = s.faultRecord) ∧
    (∀ addr, exec (.st addr) s = .next t → t.acc = s.acc ∧ t.store = s.store ∧ t.config = s.config ∧
      (∀ a, s.stAddress addr = some a → t.status = s.status ∧ t.faultRecord = s.faultRecord ∧
        ∀ b : Nat, b ≠ a → t.memRead b = s.memRead b) ∧
      (s.stAddress addr = none → t.status = .fault ∧ t.mem = s.mem ∧ t.pc = s.pc)) ∧
    (exec .bswap s = .next t → t.mem = s.mem ∧ t.store = s.store ∧ t.config = s.config ∧
      (s.bswapOperand.isSome = true → t.status = s.status ∧ t.faultRecord = s.faultRecord) ∧
      (s.bswapOperand = none → t.status = .fault ∧ t.acc = s.acc ∧ t.pc = s.pc))

/-! ### The step (40_execution_cycle.md) -/

/-- R70: a step exists in RUN only; at `pc = N` it changes nothing but `status`, and below `N` it fetches and executes. -/
def Obligations.StepExistsOnlyInRun : Prop :=
  ∀ s : State,
    (s.status = .done → step s = .fault .noStepInDone) ∧
    (s.status = .fault → step s = .fault .noStepInFault) ∧
    (s.status = .run → s.pc = s.numGroups → step s = .next { s with status := .done }) ∧
    (s.status = .run → s.pc < s.numGroups → step s = fetchDecodeExecute s)

/-- R71, R72: where the group at `pc` decodes to an instruction, a step in RUN is `exec` of it, with nothing around it;
and what it decodes to is well-formed. -/
def Obligations.StepRunsDecodedInstruction : Prop :=
  ∀ (s : State) (g : InstrGroup) (i : Instr), s.status = .run → s.store[s.pc]? = some g →
    (decode s.config g).selected = .instr i → step s = exec i s ∧ i.wf s.config = true

/-- R74: an opcode that is no instruction faults under FAULT with `acc`, `mem` and `pc` unchanged, and under SKIP only
advances `pc`. -/
def Obligations.UnknownOpcodePolicyDecides : Prop :=
  ∀ (s : State) (g : InstrGroup), s.status = .run → s.store[s.pc]? = some g →
    g.word.toNat % 2 ^ 4 ∉ [0x2, 0x8, 0x9, 0xA] →
    (s.config.unknownOpcodePolicy = .fault →
      step s = .next { s with status := .fault, faultRecord := some ⟨.unknownOpcode, s.pc, g.word⟩ }) ∧
    (s.config.unknownOpcodePolicy = .skip → step s = .next { s with pc := s.pc + 1 })

/-- R73 and R75: every group steps, to the next group or to FAULT at its own index, and nothing else writes `pc`. -/
def Obligations.PcAdvancesByOneOrFaults : Prop :=
  ∀ s : State, s.status = .run → s.pc < s.numGroups →
    ∃ t : State, step s = .next t ∧
      ((t.status = .run ∧ t.pc = s.pc + 1) ∨ (t.status = .fault ∧ t.pc = s.pc))

/-- R75: from any RUN state with `pc <= N`, and so from every reset, the run ends in DONE or FAULT within a step for
each remaining group and one more; it takes exactly that many to DONE, and `i - pc + 1` to a fault at index `i`. -/
def Obligations.RunEndsWithinOneStepPerGroup : Prop :=
  (∀ s : State, s.status = .run → s.pc ≤ s.numGroups →
    ((runFor (s.numGroups - s.pc + 1) s).status = .done ∧
      ∀ k : Nat, k ≤ s.numGroups - s.pc → (runFor k s).status = .run) ∨
    ((runFor (s.numGroups - s.pc + 1) s).status = .fault ∧ ∃ i : Nat, s.pc ≤ i ∧ i < s.numGroups ∧
      (runFor (i - s.pc + 1) s).status = .fault ∧ (runFor (i - s.pc + 1) s).pc = i ∧
      ∀ k : Nat, k ≤ i - s.pc → (runFor k s).status = .run)) ∧
  ∀ (c : Config) (stream : List Byte) (s : State), boot c stream = .next s →
    (runFor (s.numGroups + 1) s).status = .done ∨ (runFor (s.numGroups + 1) s).status = .fault

/-! ### Faults (60_exceptions.md) -/

/-- R90: a step enters FAULT with a cause exactly when the table gives that cause to the group, LDC and LDR never fault,
and the codes are 1 and 2. -/
def Obligations.FaultsExactlyWhenDue : Prop :=
  (∀ (s : State) (g : InstrGroup), s.status = .run → s.store[s.pc]? = some g →
    (∀ cause : FaultCause, s.FaultDue g cause ↔
      ∃ t : State, step s = .next t ∧ t.status = .fault ∧ t.faultRecord = some ⟨cause, s.pc, g.word⟩) ∧
    (g.b0.toNat % 16 = 0x8 ∨ g.b0.toNat % 16 = 0xA → ∃ t : State, step s = .next t ∧ t.status = .run)) ∧
  FaultCause.unknownOpcode.code = 1 ∧ FaultCause.addressOutOfRange.code = 2 ∧ ∀ cause : FaultCause, cause.code ≠ 0

/-- R92 (with R91 and R93): a step into FAULT records the cause, `pc` and the word, leaves everything else as it was,
and no step follows it. -/
def Obligations.FaultLeavesStateAsBefore : Prop :=
  ∀ s t : State, step s = .next t → t.status = .fault →
    s.status = .run ∧ t.acc = s.acc ∧ t.mem = s.mem ∧ t.pc = s.pc ∧ t.store = s.store ∧ t.config = s.config ∧
    (∃ g cause, s.store[s.pc]? = some g ∧ t.faultRecord = some ⟨cause, s.pc, g.word⟩) ∧
    step t = .fault .noStepInFault

/-! ### Memory and ordering (20_memory.md) -/

/-- R33: a read returns the most recent write to its address, or 0 where there was none; and writes keep the form. -/
def Obligations.MemReadReturnsMostRecentWrite : Prop :=
  ∀ (writes : List (Nat × Word)) (a : Nat),
    Memory.read (writes.foldl (fun m w => Memory.write m w.1 w.2) []) a =
      match writes.reverse.find? fun w => w.1 == a with
      | some w => w.2
      | none => 0

/-- No step changes the instruction store (R44), nor the parameters: that second clause is the MODEL'S CHOICE of log
entry 1, about its own field `config`, and no rule states it. -/
def Obligations.NoStepChangesTheStore : Prop :=
  ∀ s t : State, step s = .next t → t.store = s.store ∧ t.config = s.config

/-- R20, R22, R41: `acc` changes only by LDC, LDR and BSWAP; data memory changes only by ST, at its one address, to the
value of `acc`. -/
def Obligations.WhoWritesAccAndMemory : Prop :=
  ∀ s t : State, Memory.wf s.config.memWords s.mem → step s = .next t →
    (t.acc ≠ s.acc → ∃ g, s.store[s.pc]? = some g ∧ g.b0.toNat % 16 ∈ [0x2, 0x8, 0xA]) ∧
    ∀ b : Nat, t.memRead b ≠ s.memRead b →
      ∃ g, s.store[s.pc]? = some g ∧ g.b0.toNat % 16 = 0x9 ∧
        b = g.word.toNat / 2 ^ 4 % 2 ^ 15 % 2 ^ s.config.a ∧ t.memRead b = s.acc

/-! ### The output and the ports (R77, R79) -/

/-- A DONE run outputs the accumulator and all `2^A` words in address order; a FAULT run outputs its record only,
whatever its `acc` and `mem` (R77). That a run that goes on shows `none` is the MODEL'S CHOICE of log entry 8: R77 speaks
only of runs that have ended. -/
def Obligations.RunOutput : Prop :=
  (∀ s : State, s.status = .done → ∃ words : List Nat, s.observe = some (.done s.acc.toNat words) ∧
    words.length = 2 ^ s.config.a ∧ ∀ a : Nat, a < 2 ^ s.config.a → words[a]? = some (s.memRead a).toNat) ∧
  (∀ (s : State) (r : FaultRecord) (acc : Word) (mem : Memory), s.status = .fault → s.faultRecord = some r →
    s.observe = some (.fault r) ∧ State.observe { s with acc := acc, mem := mem } = s.observe) ∧
  ∀ s : State, s.status = .run → s.observe = none

/-- R79 (with R26 and R90): the core's ports in the three statuses of a state that meets the invariant. -/
def Obligations.CorePortsShowTheStatus : Prop :=
  ∀ s : State, s.Inv →
    (s.status = .run → s.ports.status = 0 ∧ (s.pc < s.numGroups → s.ports.imemIndex = some s.pc)) ∧
    (s.status = .done → s.ports.status = 1 ∧ s.ports.accOut = some s.acc ∧
      ∀ a : Nat, a < 2 ^ s.config.a → s.hostRdata a = some (s.memRead a)) ∧
    (s.status = .fault → s.ports.status = 2 ∧ ∃ g cause, s.store[s.pc]? = some g ∧ s.FaultDue g cause ∧
      s.ports.faultCause = some cause.code ∧ s.ports.faultIndex = some s.pc ∧ s.ports.faultWord = some g.word)

/-- R14, R24, R79: with a bound `MAX_WORDS`, every `pc` from 0 to `N` fits the index ports, whose width is the least. -/
def Obligations.PcFitsTheIndexPort : Prop :=
  ∀ (s : State) (m : Nat), s.Inv → s.config.maxWords = some m →
    s.pc ≤ m ∧ s.pc < 2 ^ indexWidth m ∧ ∀ w : Nat, m < 2 ^ w → indexWidth m ≤ w

/-- R76, R77: the outcome of `execute` is the output of the state in which its run ended; every program that fits has
one, and it is a DONE output exactly when the run completes. -/
def Obligations.ExecuteObservesTheEnd : Prop :=
  ∀ (c : Config) (stream : List Byte), c.fits ((stream.length + 3) / 4) = true →
    ∃ s : State, boot c stream = .next s ∧ execute c stream = s.runToEnd.observe ∧ (execute c stream).isSome = true ∧
      (s.Completes ↔ ∃ acc mem, execute c stream = some (.done acc mem))

/-! ### The host's probe (a convention of the model, log entry 13) -/

/-- MODEL'S CONVENTION (log entry 13): the word placed by `withFetchWord` is the one the very next step runs. -/
def Obligations.PlacedWordRunsNext : Prop :=
  ∀ (s : State) (w : Nat),
    step (s.withFetchWord 32 w) =
      runSelected (decode s.config (InstrGroup.ofWord (BitVec.ofNat 32 w))).selected (s.withFetchWord 32 w)

/-! ### The assembler (R62 to R69: surrounding software) -/

/-- R64 (95_test_vectors.md S4): the shift of a `mov` is an `A`-bit number that leads from `tracked` to the source. -/
def Obligations.MovShiftLeadsToSource : Prop :=
  ∀ (c : Config) (a : Nat) (tracked : Int), a < 2 ^ c.a →
    0 ≤ Asm.movShift c a tracked ∧ Asm.movShift c a tracked < 2 ^ c.a ∧
    (tracked + Asm.movShift c a tracked) % 2 ^ c.a = a

/-- R64: the LDR that a `mov` emits reads the source's address exactly when `acc mod 2^A = tracked mod 2^A`. -/
def Obligations.MovReadsSourceIffTracked : Prop :=
  ∀ (s : State) (a : Nat) (tracked : Int), a < 2 ^ s.config.a →
    ∃ shift : BitVec 16,
      decode s.config (encodeInt 0xA (Asm.movShift s.config a tracked)) = ⟨0xA, .instr (.ldr shift)⟩ ∧
      (s.ldrAddress shift = a ↔ (s.acc.toNat : Int) % 2 ^ s.config.a = tracked % 2 ^ s.config.a)

/-- R63: the two groups of `set var k` leave `acc` and `mem[a]` at `k mod 2^LDC_WIDTH`. -/
def Obligations.SetLeavesLiteralInMemory : Prop :=
  ∀ (s : State) (k : Int) (a : Nat), s.status = .run → Memory.wf s.config.memWords s.mem →
    a < 2 ^ 15 → a < 2 ^ s.config.a →
    s.store[s.pc]? = some (encodeInt 0x8 k) → s.store[s.pc + 1]? = some (encodeInt 0x9 a) →
    ∃ t u : State, step s = .next t ∧ step t = .next u ∧
      (u.acc.toNat : Int) = k % 2 ^ s.config.ldcWidth.bits ∧ u.memRead a = u.acc ∧ u.pc = s.pc + 2

/-- R66: a name that is bound keeps its address; a new one gets the next free address, the number of names before it,
and no other name's address changes; a name beyond `2^A - 1` has none. -/
def Obligations.SymbolAllocation : Prop :=
  ∀ (c : Config) (name : Asm.Name) (st : Asm.AsmState),
    (∀ a, st.resolve name = some a → st.resolveOrDeclare c name = some (a, st)) ∧
    (st.resolve name = none → st.symbols.length < 2 ^ c.a →
      ∃ st', st.resolveOrDeclare c name = some (st.symbols.length, st') ∧ st'.resolve name = some st.symbols.length ∧
        ∀ other a, st.resolve other = some a → st'.resolve other = some a) ∧
    (st.resolve name = none → 2 ^ c.a ≤ st.symbols.length → st.resolveOrDeclare c name = none)
end

