-- ==== Sys2Proof/Laws/Codec.lean ====
section
/-! SUPPORT. The laws of the codec's parts: words, fields, operands, and the cutting of the stream. -/

namespace Sys2Proof

/-- The word of a group as a sum of its bytes (R47). -/
theorem InstrGroup.word_toNat (g : InstrGroup) :
    g.word.toNat = g.b0.toNat + 2 ^ 8 * g.b1.toNat + 2 ^ 16 * g.b2.toNat + 2 ^ 24 * g.b3.toNat := by
  have h0 := g.b0.isLt
  have h1 := g.b1.isLt
  have h2 := g.b2.isLt
  simp only [InstrGroup.word, BitVec.toNat_append]
  rw [← Nat.shiftLeft_add_eq_or_of_lt h2, ← Nat.shiftLeft_add_eq_or_of_lt h1, ← Nat.shiftLeft_add_eq_or_of_lt h0]
  simp only [Nat.shiftLeft_eq]
  omega

/-- Every group is one of its word (R58). -/
theorem InstrGroup.ofWord_word (g : InstrGroup) : InstrGroup.ofWord g.word = g := by
  have h := g.word_toNat
  have h0 := g.b0.isLt
  have h1 := g.b1.isLt
  have h2 := g.b2.isLt
  have h3 := g.b3.isLt
  obtain ⟨b0, b1, b2, b3⟩ := g
  simp only [InstrGroup.ofWord, InstrGroup.mk.injEq]
  refine ⟨?_, ?_, ?_, ?_⟩ <;> apply BitVec.eq_of_toNat_eq <;>
    simp only [BitVec.extractLsb'_toNat, h, Nat.shiftRight_eq_div_pow] <;> simp only at * <;> omega

theorem InstrGroup.word_injective {g g' : InstrGroup} (h : g.word = g'.word) : g = g' := by
  rw [← InstrGroup.ofWord_word g, h, InstrGroup.ofWord_word]

/-- The group of a word has that word (R47). -/
theorem InstrGroup.word_ofWord (w : Word) : (InstrGroup.ofWord w).word = w := by
  apply BitVec.eq_of_toNat_eq
  have := w.isLt
  rw [InstrGroup.word_toNat]
  simp only [InstrGroup.ofWord, BitVec.extractLsb'_toNat, Nat.shiftRight_eq_div_pow]
  omega

theorem InstrGroup.opcode_toNat (g : InstrGroup) : g.opcode.toNat = g.word.toNat % 2 ^ 4 := by
  simp [InstrGroup.opcode, BitVec.extractLsb'_toNat]

theorem InstrGroup.field_toNat (g : InstrGroup) : g.field.toNat = g.word.toNat / 2 ^ 4 := by
  have := g.word.isLt
  simp only [InstrGroup.field, BitVec.extractLsb'_toNat, Nat.shiftRight_eq_div_pow]
  omega

/-- The opcode stands in the low half of the first byte (R46, R50). -/
theorem InstrGroup.opcode_toNat_eq_b0 (g : InstrGroup) : g.opcode.toNat = g.b0.toNat % 16 := by
  have := g.word_toNat
  rw [InstrGroup.opcode_toNat]
  omega

/-- The word of an encoding (R47): `field * 16 + opcode`. -/
theorem encodeField_word_toNat (op : Opcode) (f : Field) : (encodeField op f).word.toNat = f.toNat * 16 + op.toNat := by
  have hf := f.isLt
  have ho := op.isLt
  rw [InstrGroup.word_toNat]
  simp only [encodeField, BitVec.toNat_append, BitVec.extractLsb'_toNat]
  rw [← Nat.shiftLeft_add_eq_or_of_lt ho]
  simp only [Nat.shiftLeft_eq, Nat.shiftRight_eq_div_pow]
  omega

@[simp] theorem encodeField_opcode (op : Opcode) (f : Field) : (encodeField op f).opcode = op := by
  apply BitVec.eq_of_toNat_eq
  have := op.isLt
  rw [InstrGroup.opcode_toNat, encodeField_word_toNat]
  omega

@[simp] theorem encodeField_field (op : Opcode) (f : Field) : (encodeField op f).field = f := by
  apply BitVec.eq_of_toNat_eq
  have := op.isLt
  rw [InstrGroup.field_toNat, encodeField_word_toNat]
  omega

/-! ### Operands (R51) -/

theorem ldcOperand_toNat (c : Config) (f : Field) : (ldcOperand c f).toNat = f.toNat % 2 ^ c.ldcWidth.bits := by
  have := f.isLt
  unfold ldcOperand
  split <;> rename_i h <;>
    simp only [h, LdcWidth.bits, BitVec.toNat_setWidth, BitVec.extractLsb'_toNat, Nat.shiftRight_zero] <;> omega

theorem stOperand_toNat (f : Field) : (stOperand f).toNat = f.toNat % 2 ^ 15 := by
  simp [stOperand, BitVec.extractLsb'_toNat]

theorem ldrOperand_toNat (c : Config) (f : Field) : (ldrOperand c f).toNat = f.toNat % 2 ^ c.a := by
  unfold ldrOperand
  split
  · rename_i h
    simp only [h, Config.a, AddressWidth.bits, BitVec.toNat_setWidth, BitVec.extractLsb'_toNat, Nat.shiftRight_zero]
    omega
  · rename_i h
    simp only [h, Config.a, AddressWidth.bits, BitVec.extractLsb'_toNat, Nat.shiftRight_zero]

/-- What the decoder selects for an instruction of one opcode. -/
theorem select_ldc (c : Config) (f : Field) : select c 0x8#4 f = .instr (.ldc (ldcOperand c f)) := by simp [select]
theorem select_st (c : Config) (f : Field) : select c 0x9#4 f = .instr (.st (stOperand f)) := by simp [select]
theorem select_ldr (c : Config) (f : Field) : select c 0xA#4 f = .instr (.ldr (ldrOperand c f)) := by simp [select]
theorem select_bswap (c : Config) (f : Field) : select c 0x2#4 f = .instr .bswap := by simp [select]

/-- What a selection says of the opcode and the field: one case for each kind of R51. -/
theorem select_cases (c : Config) (op : Opcode) (f : Field) :
    (op = 0x8#4 ∧ select c op f = .instr (.ldc (ldcOperand c f))) ∨
    (op = 0x9#4 ∧ select c op f = .instr (.st (stOperand f))) ∨
    (op = 0xA#4 ∧ select c op f = .instr (.ldr (ldrOperand c f))) ∨
    (op = 0x2#4 ∧ select c op f = .instr .bswap) ∨
    ((op ≠ 0x8#4 ∧ op ≠ 0x9#4 ∧ op ≠ 0xA#4 ∧ op ≠ 0x2#4) ∧ select c op f = .unknown) := by
  unfold select
  repeat' split
  all_goals simp_all

/-- A decoded instruction is well-formed. -/
theorem select_wf {c : Config} {op : Opcode} {f : Field} {i : Instr} (h : select c op f = .instr i) : i.wf c = true := by
  rcases select_cases c op f with ⟨_, hs⟩ | ⟨_, hs⟩ | ⟨_, hs⟩ | ⟨_, hs⟩ | ⟨_, hs⟩ <;> rw [hs] at h <;> cases h
  · simpa [Instr.wf, ldcOperand_toNat] using Nat.mod_lt _ (Nat.two_pow_pos _)
  · rfl
  · simpa [Instr.wf, ldrOperand_toNat] using Nat.mod_lt _ (Nat.two_pow_pos _)
  · rfl

/-! ### The stream -/

@[simp] theorem groupsOf_nil : groupsOf [] = [] := rfl

@[simp] theorem groupsOf_bytes_append (g : InstrGroup) (rest : List Byte) :
    groupsOf (g.bytes ++ rest) = g :: groupsOf rest := rfl

/-- Cutting a stream of whole groups gives the groups back (R38). -/
theorem groupsOf_streamOf (gs : List InstrGroup) : groupsOf (streamOf gs) = gs := by
  induction gs with
  | nil => rfl
  | cons g rest ih => rw [streamOf, groupsOf_bytes_append, ih]

end Sys2Proof
end

