-- ==== Sys2Proof/Laws/Memory.lean ====
section
/-! SUPPORT. The laws of data memory: a read after a write, and the canonical form under every memory operation. -/

namespace Sys2Proof.Machine

@[simp] theorem Memory.read_nil (a : Nat) : Memory.read [] a = unwrittenWord := rfl

theorem Memory.read_cons_cell (b : Nat) (w : Word) (m : Memory) (a : Nat) :
    Memory.read ((b, w) :: m) a = if a = b then w else Memory.read m a := rfl

/-- An address below every listed one reads as unwritten. -/
theorem Memory.read_below {m : Memory} {a : Nat} (h : ∀ cell ∈ m, a < cell.1) : m.read a = unwrittenWord := by
  induction m with
  | nil => rfl
  | cons cell rest ih =>
    obtain ⟨b, w⟩ := cell
    have hb : a < b := h (b, w) (by simp)
    rw [Memory.read_cons_cell, if_neg (by omega)]
    exact ih fun c hc => h c (by simp [hc])

/-- `Memory.cons` puts a word in front of a memory that lists only greater addresses. -/
theorem Memory.read_cons {m : Memory} {a : Nat} (h : ∀ cell ∈ m, a < cell.1) (v : Word) (x : Nat) :
    (Memory.cons a v m).read x = if x = a then v else m.read x := by
  unfold Memory.cons
  split
  · split
    · rename_i hv hx
      rw [hx, Memory.read_below h, hv]
    · rfl
  · rfl

theorem Memory.wf_nil (size : Nat) : Memory.wf size [] := ⟨.nil, by simp⟩

/-- The tail of a memory in canonical form, and what its head is below. -/
theorem Memory.wf_cons_cell {size b : Nat} {w : Word} {m : Memory} :
    Memory.wf size ((b, w) :: m) ↔
      (∀ cell ∈ m, b < cell.1) ∧ (b < size ∧ w ≠ unwrittenWord) ∧ Memory.wf size m := by
  simp only [Memory.wf, List.pairwise_cons, List.forall_mem_cons]
  tauto

theorem Memory.wf_cons {size a : Nat} {v : Word} {m : Memory} (hm : m.wf size) (ha : a < size)
    (h : ∀ cell ∈ m, a < cell.1) : (Memory.cons a v m).wf size := by
  unfold Memory.cons
  split
  · exact hm
  · exact Memory.wf_cons_cell.2 ⟨h, ⟨ha, ‹_›⟩, hm⟩

theorem Memory.mem_cons {a : Nat} {v : Word} {m : Memory} {cell : MemCell} (h : cell ∈ Memory.cons a v m) :
    cell = (a, v) ∨ cell ∈ m := by
  unfold Memory.cons at h
  split at h
  · exact .inr h
  · simpa using h

/-- A write lists no address but its own beside those listed before. -/
theorem Memory.mem_write {m : Memory} {a : Nat} {v : Word} {cell : MemCell} (h : cell ∈ m.write a v) :
    cell = (a, v) ∨ cell ∈ m := by
  induction m with
  | nil => exact Memory.mem_cons h
  | cons head rest ih =>
    obtain ⟨b, w⟩ := head
    simp only [Memory.write] at h
    split at h
    · exact Memory.mem_cons h
    · split at h
      · exact (Memory.mem_cons h).imp_right fun hc => by simp [hc]
      · rcases List.mem_cons.1 h with hc | hc
        · exact .inr (by simp [hc])
        · exact (ih hc).imp_right fun hc => by simp [hc]

/-- A write keeps the canonical form. -/
theorem Memory.write_wf {size a : Nat} {v : Word} {m : Memory} (hm : m.wf size) (ha : a < size) :
    (m.write a v).wf size := by
  induction m with
  | nil => exact Memory.wf_cons hm ha (by simp)
  | cons head rest ih =>
    obtain ⟨b, w⟩ := head
    obtain ⟨hlt, hb, hrest⟩ := Memory.wf_cons_cell.1 hm
    simp only [Memory.write]
    split
    · rename_i hab
      refine Memory.wf_cons hm ha ?_
      simp only [List.forall_mem_cons]
      exact ⟨hab, fun c hc => lt_trans hab (hlt c hc)⟩
    · split
      · rename_i hab
        exact Memory.wf_cons hrest ha (hab ▸ hlt)
      · refine Memory.wf_cons_cell.2 ⟨fun c hc => ?_, hb, ih hrest⟩
        rcases Memory.mem_write hc with rfl | hc
        · simp only
          omega
        · exact hlt c hc

/-- A write leaves every other address as it was, in any memory. -/
theorem Memory.read_write_ne {a x : Nat} (h : x ≠ a) (v : Word) (m : Memory) : (m.write a v).read x = m.read x := by
  have cons_ne (m : Memory) : (Memory.cons a v m).read x = m.read x := by
    unfold Memory.cons
    split
    · rfl
    · rw [Memory.read_cons_cell, if_neg h]
  induction m with
  | nil => exact cons_ne []
  | cons head rest ih =>
    obtain ⟨b, w⟩ := head
    simp only [Memory.write]
    split
    · exact cons_ne _
    · split
      · rename_i hab
        rw [cons_ne, Memory.read_cons_cell, if_neg (hab ▸ h)]
      · rw [Memory.read_cons_cell, Memory.read_cons_cell, ih]

/-- A read after a write, in a memory whose addresses rise. -/
theorem Memory.read_write {m : Memory} (hm : m.Pairwise fun x y => x.1 < y.1) (a : Nat) (v : Word) (x : Nat) :
    (m.write a v).read x = if x = a then v else m.read x := by
  induction m with
  | nil => exact Memory.read_cons (by simp) v x
  | cons head rest ih =>
    obtain ⟨b, w⟩ := head
    obtain ⟨hlt, hrest⟩ := List.pairwise_cons.1 hm
    simp only [Memory.write]
    split
    · rename_i hab
      refine Memory.read_cons ?_ v x
      simp only [List.forall_mem_cons]
      exact ⟨hab, fun c hc => lt_trans hab (hlt c hc)⟩
    · split
      · rename_i hab
        subst hab
        rw [Memory.read_cons hlt, Memory.read_cons_cell]
        split <;> rfl
      · rw [Memory.read_cons_cell, Memory.read_cons_cell, ih hrest]
        split
        · rename_i hxb
          rw [if_neg (by omega)]
        · rfl

end Sys2Proof.Machine
end

