-- ==== Sys2Proof/Laws/State.lean ====
section
/-! SUPPORT. One lemma for each field under each update of the state. -/

namespace Sys2Proof.Machine

/-! ### setAcc -/

@[simp] theorem State.setAcc_config (v : Word) (s : State) : (s.setAcc v).config = s.config := rfl
@[simp] theorem State.setAcc_acc (v : Word) (s : State) : (s.setAcc v).acc = v := rfl
@[simp] theorem State.setAcc_mem (v : Word) (s : State) : (s.setAcc v).mem = s.mem := rfl
@[simp] theorem State.setAcc_store (v : Word) (s : State) : (s.setAcc v).store = s.store := rfl
@[simp] theorem State.setAcc_pc (v : Word) (s : State) : (s.setAcc v).pc = s.pc := rfl
@[simp] theorem State.setAcc_status (v : Word) (s : State) : (s.setAcc v).status = s.status := rfl
@[simp] theorem State.setAcc_faultRecord (v : Word) (s : State) : (s.setAcc v).faultRecord = s.faultRecord := rfl

/-! ### memWrite -/

@[simp] theorem State.memWrite_config (a : Nat) (v : Word) (s : State) : (s.memWrite a v).config = s.config := rfl
@[simp] theorem State.memWrite_acc (a : Nat) (v : Word) (s : State) : (s.memWrite a v).acc = s.acc := rfl
@[simp] theorem State.memWrite_mem (a : Nat) (v : Word) (s : State) : (s.memWrite a v).mem = s.mem.write a v := rfl
@[simp] theorem State.memWrite_store (a : Nat) (v : Word) (s : State) : (s.memWrite a v).store = s.store := rfl
@[simp] theorem State.memWrite_pc (a : Nat) (v : Word) (s : State) : (s.memWrite a v).pc = s.pc := rfl
@[simp] theorem State.memWrite_status (a : Nat) (v : Word) (s : State) : (s.memWrite a v).status = s.status := rfl
@[simp] theorem State.memWrite_faultRecord (a : Nat) (v : Word) (s : State) : (s.memWrite a v).faultRecord = s.faultRecord := rfl

/-! ### advance -/

@[simp] theorem State.advance_config (s : State) : s.advance.config = s.config := rfl
@[simp] theorem State.advance_acc (s : State) : s.advance.acc = s.acc := rfl
@[simp] theorem State.advance_mem (s : State) : s.advance.mem = s.mem := rfl
@[simp] theorem State.advance_store (s : State) : s.advance.store = s.store := rfl
@[simp] theorem State.advance_pc (s : State) : s.advance.pc = s.pc + 1 := rfl
@[simp] theorem State.advance_status (s : State) : s.advance.status = s.status := rfl
@[simp] theorem State.advance_faultRecord (s : State) : s.advance.faultRecord = s.faultRecord := rfl

/-! ### finish -/

@[simp] theorem State.finish_config (s : State) : s.finish.config = s.config := rfl
@[simp] theorem State.finish_acc (s : State) : s.finish.acc = s.acc := rfl
@[simp] theorem State.finish_mem (s : State) : s.finish.mem = s.mem := rfl
@[simp] theorem State.finish_store (s : State) : s.finish.store = s.store := rfl
@[simp] theorem State.finish_pc (s : State) : s.finish.pc = s.pc := rfl
@[simp] theorem State.finish_status (s : State) : s.finish.status = .done := rfl
@[simp] theorem State.finish_faultRecord (s : State) : s.finish.faultRecord = s.faultRecord := rfl

/-! ### withFetchWord -/

@[simp] theorem State.withFetchWord_config (s : State) (nbits w : Nat) : (s.withFetchWord nbits w).config = s.config := rfl
@[simp] theorem State.withFetchWord_acc (s : State) (nbits w : Nat) : (s.withFetchWord nbits w).acc = s.acc := rfl
@[simp] theorem State.withFetchWord_mem (s : State) (nbits w : Nat) : (s.withFetchWord nbits w).mem = s.mem := rfl
@[simp] theorem State.withFetchWord_store (s : State) (nbits w : Nat) : (s.withFetchWord nbits w).store = placeGroup s.store s.pc (tableGroup nbits w) := rfl
@[simp] theorem State.withFetchWord_pc (s : State) (nbits w : Nat) : (s.withFetchWord nbits w).pc = s.pc := rfl
@[simp] theorem State.withFetchWord_status (s : State) (nbits w : Nat) : (s.withFetchWord nbits w).status = .run := rfl
@[simp] theorem State.withFetchWord_faultRecord (s : State) (nbits w : Nat) : (s.withFetchWord nbits w).faultRecord = none := rfl

/-! ### initial -/

@[simp] theorem State.initial_config (c : Config) (store : List InstrGroup) : (State.initial c store).config = c := rfl
@[simp] theorem State.initial_acc (c : Config) (store : List InstrGroup) : (State.initial c store).acc = 0 := rfl
@[simp] theorem State.initial_mem (c : Config) (store : List InstrGroup) : (State.initial c store).mem = [] := rfl
@[simp] theorem State.initial_store (c : Config) (store : List InstrGroup) : (State.initial c store).store = store := rfl
@[simp] theorem State.initial_pc (c : Config) (store : List InstrGroup) : (State.initial c store).pc = 0 := rfl
@[simp] theorem State.initial_status (c : Config) (store : List InstrGroup) : (State.initial c store).status = .run := rfl
@[simp] theorem State.initial_faultRecord (c : Config) (store : List InstrGroup) : (State.initial c store).faultRecord = none := rfl

/-! ### What is computed from fields -/

@[simp] theorem State.setAcc_numGroups (v : Word) (s : State) : (s.setAcc v).numGroups = s.numGroups := rfl
@[simp] theorem State.memWrite_numGroups (a : Nat) (v : Word) (s : State) : (s.memWrite a v).numGroups = s.numGroups := rfl
@[simp] theorem State.advance_numGroups (s : State) : s.advance.numGroups = s.numGroups := rfl
@[simp] theorem State.finish_numGroups (s : State) : s.finish.numGroups = s.numGroups := rfl
@[simp] theorem State.initial_numGroups (c : Config) (store : List InstrGroup) :
    (State.initial c store).numGroups = store.length := rfl
@[simp] theorem State.memRead_setAcc (a : Nat) (v : Word) (s : State) : (s.setAcc v).memRead a = s.memRead a := rfl
@[simp] theorem State.memRead_advance (a : Nat) (s : State) : s.advance.memRead a = s.memRead a := rfl
@[simp] theorem State.memRead_finish (a : Nat) (s : State) : s.finish.memRead a = s.memRead a := rfl
@[simp] theorem State.memRead_initial (a : Nat) (c : Config) (store : List InstrGroup) :
    (State.initial c store).memRead a = 0 := rfl

end Sys2Proof.Machine
end

