-- ==== Sys2Proof/Laws/Ops.lean ====
section
/-! SUPPORT. One lemma for each shared operation: everything it can answer. -/

namespace Sys2Proof.Machine

theorem memWords_pos (c : Config) : 0 < c.memWords := Nat.two_pow_pos _

/-- The two sizes of the data memory (R5). -/
theorem memWords_cases (c : Config) :
    (c.addressWidth = .a11 ∧ c.memWords = 2048) ∨ (c.addressWidth = .a16 ∧ c.memWords = 65536) := by
  unfold Config.memWords Config.a
  cases h : c.addressWidth <;> simp [AddressWidth.bits]

/-! ### Address formation -/

theorem boundedAddress_inRange {t : Nat} {s : State} (h : t < s.config.memWords) : s.boundedAddress t = some t := by
  simp [State.boundedAddress, h]

/-- All that `boundedAddress` can answer (R12). -/
theorem boundedAddress_cases (t : Nat) (s : State) :
    (t < s.config.memWords ∧ s.boundedAddress t = some t) ∨
    (s.config.memWords ≤ t ∧ s.config.addrOobPolicy = .wrap ∧ s.boundedAddress t = some (t % s.config.memWords)) ∨
    (s.config.memWords ≤ t ∧ s.config.addrOobPolicy = .fault ∧ s.boundedAddress t = none) := by
  unfold State.boundedAddress
  by_cases h : t < s.config.memWords
  · simp [h]
  · cases hp : s.config.addrOobPolicy <;> (simp [h]; omega)

/-- A bounded address is an address of the data memory. -/
theorem boundedAddress_lt {t a : Nat} {s : State} (h : s.boundedAddress t = some a) : a < s.config.memWords := by
  rcases boundedAddress_cases t s with ⟨ht, e⟩ | ⟨_, _, e⟩ | ⟨_, _, e⟩ <;> rw [e] at h <;> cases h
  · exact ht
  · exact Nat.mod_lt _ (memWords_pos _)

theorem ldrAddress_lt (shift : BitVec 16) (s : State) : s.ldrAddress shift < s.config.memWords :=
  Nat.mod_lt _ (memWords_pos _)

/-- All that `bswapOperand` can answer (R86, R87). -/
theorem bswapOperand_cases (s : State) :
    (s.config.bswapSource = .acc ∧ s.bswapOperand = some s.acc) ∨
    (s.config.bswapSource = .memAtAcc ∧ ∃ a, s.bswapAddress = some a ∧ s.bswapOperand = some (s.memRead a)) ∨
    (s.config.bswapSource = .memAtAcc ∧ s.bswapAddress = none ∧ s.bswapOperand = none) := by
  unfold State.bswapOperand
  cases hb : s.config.bswapSource
  · simp
  · cases ha : s.bswapAddress <;> simp

/-! ### Faults -/

/-- All that `raise` can do when it answers a next state (R91, R92). -/
theorem raise_next {cause : FaultCause} {s t : State} (h : raise cause s = .next t) :
    ∃ g, s.currentGroup = some g ∧
      t = { s with status := .fault, faultRecord := some ⟨cause, s.pc, g.word⟩ } := by
  unfold raise at h
  split at h
  · cases h
    exact ⟨_, ‹_›, rfl⟩
  · cases h

/-- Where a group stands at `pc`, `raise` answers a next state. -/
theorem raise_of_currentGroup {s : State} {g : InstrGroup} (h : s.currentGroup = some g) (cause : FaultCause) :
    raise cause s = .next { s with status := .fault, faultRecord := some ⟨cause, s.pc, g.word⟩ } := by
  simp [raise, h]

/-- A group stands at `pc` exactly when `pc < N` (R23). -/
theorem currentGroup_isSome_iff (s : State) : (∃ g, s.currentGroup = some g) ↔ s.pc < s.numGroups := by
  simp [State.currentGroup, State.numGroups, ← Option.isSome_iff_exists]

end Sys2Proof.Machine
end

