-- ==== Sys2Proof/Laws/PerInstr.lean ====
section
/-! SUPPORT. What is said of every instruction as syntax, one lemma a constructor. -/

namespace Sys2Proof.Laws.EncodedOpcode

/-- The group of an instruction carries its opcode and its field, and its opcode selects an instruction (R55). -/
def Statement (i : Instr) : Prop :=
  (encode i).opcode = i.opcode ∧ (encode i).field = i.field ∧ ∀ c, (decode c (encode i)).selected ≠ .unknown

theorem ldc (imm : BitVec 28) : Statement (.ldc imm) :=
  ⟨encodeField_opcode _ _, encodeField_field _ _, fun c => by simp [decode, encode, Instr.opcode, select_ldc]⟩

theorem st (addr : BitVec 15) : Statement (.st addr) :=
  ⟨encodeField_opcode _ _, encodeField_field _ _, fun c => by simp [decode, encode, Instr.opcode, select_st]⟩

theorem ldr (shift : BitVec 16) : Statement (.ldr shift) :=
  ⟨encodeField_opcode _ _, encodeField_field _ _, fun c => by simp [decode, encode, Instr.opcode, select_ldr]⟩

theorem bswap : Statement .bswap :=
  ⟨encodeField_opcode _ _, encodeField_field _ _, fun c => by simp [decode, encode, Instr.opcode, select_bswap]⟩

end Sys2Proof.Laws.EncodedOpcode
end

