-- ==== Sys2Proof/Laws/Step.lean ====
section
/-! SUPPORT. What an instruction and a step can do, said once: every later proof takes its cases from here. -/

namespace Sys2Proof.Machine

/-- All that an instruction can do when it answers a next state: it loads the accumulator, stores it, or faults. -/
inductive ExecResult (i : Instr) (s : State) : State → Prop where
  | load (v : Word) (hi : ∀ addr, i ≠ .st addr) : ExecResult i s (s.setAcc v).advance
  | store (addr : BitVec 15) (a : Nat) (hi : i = .st addr) (ha : s.stAddress addr = some a) :
      ExecResult i s (s.memWrite a s.acc).advance
  | fault (g : InstrGroup) (hg : s.currentGroup = some g)
      (hi : (∃ addr, i = .st addr ∧ s.stAddress addr = none) ∨ (i = .bswap ∧ s.bswapOperand = none)) :
      ExecResult i s { s with status := .fault, faultRecord := some ⟨.addressOutOfRange, s.pc, g.word⟩ }

theorem exec_next {i : Instr} {s t : State} (h : exec i s = .next t) : ExecResult i s t := by
  cases i with
  | ldc imm => cases h; exact .load _ (by simp)
  | ldr shift => cases h; exact .load _ (by simp)
  | st addr =>
    simp only [exec, execSt] at h
    split at h
    · cases h; exact .store addr _ rfl ‹_›
    · obtain ⟨g, hg, rfl⟩ := raise_next h
      exact .fault g hg (.inl ⟨addr, rfl, ‹_›⟩)
  | bswap =>
    simp only [exec, execBswap] at h
    split at h
    · cases h; exact .load _ (by simp)
    · obtain ⟨g, hg, rfl⟩ := raise_next h
      exact .fault g hg (.inr ⟨rfl, ‹_›⟩)

/-- All that a step can do when it answers a next state (R70, R71, R74). -/
inductive StepResult (s : State) : State → Prop where
  | finish (hpc : s.pc = s.numGroups) : StepResult s s.finish
  | instr (g : InstrGroup) (i : Instr) (t : State) (hpc : s.pc ≠ s.numGroups) (hg : s.currentGroup = some g)
      (hi : select s.config g.opcode g.field = .instr i) (ht : exec i s = .next t) : StepResult s t
  | skip (g : InstrGroup) (hpc : s.pc ≠ s.numGroups) (hg : s.currentGroup = some g)
      (hi : select s.config g.opcode g.field = .unknown) (hp : s.config.unknownOpcodePolicy = .skip) :
      StepResult s s.advance
  | unknown (g : InstrGroup) (hpc : s.pc ≠ s.numGroups) (hg : s.currentGroup = some g)
      (hi : select s.config g.opcode g.field = .unknown) (hp : s.config.unknownOpcodePolicy = .fault) :
      StepResult s { s with status := .fault, faultRecord := some ⟨.unknownOpcode, s.pc, g.word⟩ }

theorem step_next {s t : State} (h : step s = .next t) : s.status = .run ∧ StepResult s t := by
  unfold step at h
  split at h
  case h_2 => cases h
  case h_3 => cases h
  case h_1 hrun =>
    refine ⟨hrun, ?_⟩
    unfold runStep at h
    split at h
    · cases h; exact .finish ‹_›
    · rename_i hpc
      unfold fetchDecodeExecute at h
      split at h
      case h_2 => cases h
      case h_1 g hg =>
        cases hsel : (decode s.config g).selected with
        | instr i =>
          rw [hsel] at h
          exact .instr g i t hpc hg hsel h
        | unknown =>
          rw [hsel] at h
          simp only [runSelected, runUnknown] at h
          cases hp : s.config.unknownOpcodePolicy with
          | skip =>
            rw [hp] at h; cases h
            exact .skip g hpc hg hsel hp
          | fault =>
            rw [hp] at h
            obtain ⟨g', hg', rfl⟩ := raise_next h
            rw [hg] at hg'; cases hg'
            exact .unknown g hpc hg hsel hp

end Sys2Proof.Machine
end

