-- ==== Sys2Proof/Tests/Slice0.lean ====
section
/-! SUPPORT. Tests on fixed values, and for every statement with hypotheses a witness that meets them. Expected results
are those of spec/95_test_vectors.md or are worked out by hand from the rule named. -/

namespace Sys2Proof.Tests

open Sys2Proof.Machine

/-! ### Helpers -/

/-- The next state, where there is one. -/
def nextOf : Host.Outcome State Fault Refusal → Option State
  | .next s => some s
  | .fault _ => none
  | .refused _ => none

/-- A RUN state at group 0 of a store. -/
def at0 (c : Config) (acc : Word) (mem : Memory) (store : List InstrGroup) : State :=
  { State.initial c store with acc := acc, mem := mem }

def stepAcc (s : State) : Option Word := (nextOf (step s)).map fun t => t.acc
def stepMem (s : State) : Option Memory := (nextOf (step s)).map fun t => t.mem
def stepRecord (s : State) : Option (Option FaultRecord) := (nextOf (step s)).map fun t => t.faultRecord
def stepPc (s : State) : Option Nat := (nextOf (step s)).map fun t => t.pc

def p11w28 : Config := { Config.p11 with ldcWidth := .w28 }
def p11fault : Config := { Config.p11 with addrOobPolicy := .fault }
def p11skip : Config := { Config.p11 with unknownOpcodePolicy := .skip }

/-! ### WellFormed refuses an ill-formed term at each check (R57) -/

theorem test_wf_refuses_wide_imm : (Instr.ldc 0x8000000).wf Config.p11 = false := by decide
theorem test_wf_admits_widest_imm : (Instr.ldc 0x7FFFFFF).wf Config.p11 = true := by decide
theorem test_wf_refuses_wide_shift : (Instr.ldr 0x800).wf Config.p11 = false := by decide
theorem test_wf_admits_widest_shift : (Instr.ldr 0x7FF).wf Config.p11 = true := by decide

/-! ### Decoding, from words written out by R55 (bits 31 down to 0) -/

theorem test_decode_ldc_bits :
    decodeTableWord 32 0b00010010001101000101011001111000 = some (.ldc 0x1234567) := by decide
theorem test_decode_st_bits :
    decodeTableWord 32 0b11111111111110000000000001011001 = some (.st 5) := by decide
theorem test_decode_ldr_bits :
    decodeTableWord 32 0b11011101110011001011101110101010 = some (.ldr 0xCBBA) := by decide
theorem test_decode_ldr_bits_a11 :
    (decode Config.p11 (InstrGroup.ofWord 0xDDCCBBAA)).selected = .instr (.ldr 0x3BA) := by decide
theorem test_decode_bswap_bits :
    decodeTableWord 32 0b01111000010101100011010000010010 = some .bswap := by decide
theorem test_decode_unknown : decodeTableWord 32 0xABCDEF15 = none := by decide
theorem test_decode_ldc_width :
    ldcOperand Config.p11 0x8000000 = 0 ∧ ldcOperand p11w28 0x8000000 = 0x8000000 := by decide
theorem test_encode_vectors :
    encodeInt 0x8 0x1234567 = ⟨0x78, 0x56, 0x34, 0x12⟩ ∧ encodeInt 0x8 (-1) = ⟨0xF8, 0xFF, 0xFF, 0xFF⟩ ∧
    encodeInt 0x9 0x7FFF = ⟨0xF9, 0xFF, 0x07, 0x00⟩ ∧ encodeInt 0x13 1 = ⟨0x13, 0, 0, 0⟩ ∧
    encodeInt 0x2 0 = ⟨0x02, 0, 0, 0⟩ ∧ encodeInt 0x5 0xABCDEF1 = ⟨0x15, 0xEF, 0xCD, 0xAB⟩ := by decide
theorem test_encode_instr : encode (.ldr 2) = ⟨0x2A, 0, 0, 0⟩ ∧ encode (.st 0x7FF) = ⟨0xF9, 0x7F, 0, 0⟩ := by decide
theorem test_stream_padding : groupsOf [0x58, 0, 0, 0, 0x09, 0x01] = [⟨0x58, 0, 0, 0⟩, ⟨0x09, 0x01, 0, 0⟩] := by decide
theorem test_decoder_ports :
    (dz4Decode Config.p11 ⟨0xAA, 0xBB, 0xCC, 0xDD⟩).decKind = 3 ∧
    (dz4Decode Config.p11 ⟨0xAA, 0xBB, 0xCC, 0xDD⟩).decAddr = 0x4BBA ∧
    (dz4Decode Config.p11 ⟨0xFF, 0xFF, 0xFF, 0xFF⟩).decKnown = false := by decide

/-! ### The instructions (sections 2.3 to 2.7) -/

theorem test_ldc_w27 : stepAcc (at0 .p11 0xDEADBEEF [] [⟨0xF8, 0xFF, 0xFF, 0xFF⟩]) = some 0x7FFFFFF := by decide
theorem test_ldc_w28 : stepAcc (at0 p11w28 0 [] [⟨0xF8, 0xFF, 0xFF, 0xFF⟩]) = some 0xFFFFFFF := by decide
theorem test_st_wraps : stepMem (at0 .p11 9 [(3, 4)] [⟨0xF9, 0xFF, 0x07, 0x00⟩]) = some [(3, 4), (0x7FF, 9)] := by decide
theorem test_st_out_of_range :
    stepRecord (at0 p11fault 9 [] [⟨0x09, 0x80, 0x00, 0x00⟩]) =
      some (some ⟨.addressOutOfRange, 0, 0x00008009⟩) := by decide
theorem test_ldr_high_base : stepAcc (at0 .p11 0xFFFFF803 [(5, 42)] [⟨0x2A, 0, 0, 0⟩]) = some 42 := by decide
theorem test_ldr_a16_top : stepAcc (at0 .p16 0 [(0xFFFF, 1)] [⟨0xFA, 0xFF, 0x0F, 0x00⟩]) = some 1 := by decide
theorem test_bswap_acc : stepAcc (at0 .p16 0x1223344 [] [⟨0xF2, 0xFF, 0xFF, 0xFF⟩]) = some 0x44332201 := by decide
theorem test_bswap_mem_wraps : stepAcc (at0 .p11 0x80000 [(0, 0xFF)] [⟨0x02, 0, 0, 0⟩]) = some 0xFF000000 := by decide
theorem test_bswap_vectors : bswap32 0x12345678 = 0x78563412 ∧ bswap32 0xFFFFFF0F = 0x0FFFFFFF := by decide
theorem test_unknown_faults :
    stepRecord (at0 .p11 1 [] [⟨0xFF, 0xFF, 0xFF, 0xFF⟩]) = some (some ⟨.unknownOpcode, 0, 0xFFFFFFFF⟩) := by decide
theorem test_unknown_skips : stepPc (at0 p11skip 1 [] [⟨0, 0, 0, 0⟩]) = some 1 := by decide
theorem test_write_zero_unlists : Memory.write [(1, 5), (2, 6)] 1 0 = [(2, 6)] := by decide
theorem test_fetch_word_from_reset : stepAcc (State.reset.withFetchWord 32 0x00000058) = some 5 := by decide

/-! ### The assembler (30_encoding.md section 7, 95_test_vectors.md) -/

/-- Program COPY under `A = 11`, with a comment and an empty line. -/
theorem test_assemble_copy :
    (Asm.assembleLines .p11 1 .start
        [['s', 'e', 't', ' ', 'a', ' ', '7', ';', 'x'], [' '], ['m', 'o', 'v', '\t', 'b', ' ', 'a']]).toOption.map
      (fun st => st.emitted.map fun e => e.bytes) =
    some [⟨0x78, 0, 0, 0⟩, ⟨0x09, 0, 0, 0⟩, ⟨0x9A, 0x7F, 0, 0⟩, ⟨0x19, 0, 0, 0⟩] := by decide

/-- S7: an undeclared source fails and emits zero bytes; the error names line 1. -/
theorem test_assemble_undeclared :
    Asm.assembleStream .p11 ['m', 'o', 'v', ' ', 'a', ' ', 'b'] = [] ∧
    Asm.assembleLine .p11 .start ['m', 'o', 'v', ' ', 'a', ' ', 'b'] = .error .undeclaredVariable ∧
    Asm.parseInt ['-', '1'] = some (-1) ∧ Asm.parseInt ['0', 'x', '1'] = none := by decide

/-! ### Witnesses: the hypotheses of each statement are met together, at the edges of each clause -/

def gLdc : InstrGroup := ⟨0xF8, 0xFF, 0xFF, 0xFF⟩
/-- ST `0x7FF`, the last address under `A = 11`. -/
def gStLast : InstrGroup := ⟨0xF9, 0x7F, 0x00, 0x00⟩
/-- ST `0x800`, the first address out of range under `A = 11`. -/
def gStOut : InstrGroup := ⟨0x09, 0x80, 0x00, 0x00⟩
def gLdr : InstrGroup := ⟨0xFA, 0xFF, 0xFF, 0xFF⟩
def gBswap : InstrGroup := ⟨0x02, 0, 0, 0⟩
def gUnknown : InstrGroup := ⟨0x0F, 0, 0, 0⟩

theorem witness_DecodeReadsLowFieldBits :
    gLdc.word.toNat % 2 ^ 4 = 0x8 ∧ gStOut.word.toNat % 2 ^ 4 = 0x9 ∧ gLdr.word.toNat % 2 ^ 4 = 0xA ∧
    gBswap.word.toNat % 2 ^ 4 = 0x2 ∧ gUnknown.word.toNat % 2 ^ 4 ∉ [0x2, 0x8, 0x9, 0xA] := by decide

theorem witness_DecoderPortsReportDecode :
    (decode Config.p11 gLdc).selected = .instr (.ldc 0x7FFFFFF) ∧
    (decode Config.p11 gStOut).selected = .instr (.st 0x800) ∧
    (decode Config.p11 gLdr).selected = .instr (.ldr 0x7FF) ∧ (decode Config.p11 gBswap).selected = .instr .bswap := by
  decide

/-- Two STs to address `0x800` that differ in word bit 31, which ST ignores. -/
theorem witness_UnreadFieldBitsNeverMatter_st :
    (at0 p11fault 5 [] [gStOut]).status = .run ∧ (at0 p11fault 5 [] [gStOut]).store[0]? = some gStOut ∧
    (⟨0x09, 0x80, 0x00, 0x80⟩ : InstrGroup).opcode = gStOut.opcode ∧
    (⟨0x09, 0x80, 0x00, 0x80⟩ : InstrGroup).field.toNat % 2 ^ 15 = gStOut.field.toNat % 2 ^ 15 ∧
    (⟨0x09, 0x80, 0x00, 0x80⟩ : InstrGroup) ≠ gStOut := by decide
theorem witness_UnreadFieldBitsNeverMatter_ldc :
    (at0 .p11 5 [] [gLdc]).store[0]? = some gLdc ∧ (⟨0xF8, 0xFF, 0xFF, 0x7F⟩ : InstrGroup).opcode = gLdc.opcode ∧
    (⟨0xF8, 0xFF, 0xFF, 0x7F⟩ : InstrGroup).field.toNat % 2 ^ Config.p11.ldcWidth.bits =
      gLdc.field.toNat % 2 ^ Config.p11.ldcWidth.bits := by decide
theorem witness_UnreadFieldBitsNeverMatter_ldr :
    (at0 .p11 5 [] [gLdr]).store[0]? = some gLdr ∧ (⟨0xFA, 0x7F, 0, 0⟩ : InstrGroup).opcode = gLdr.opcode ∧
    (⟨0xFA, 0x7F, 0, 0⟩ : InstrGroup).field.toNat % 2 ^ Config.p11.a = gLdr.field.toNat % 2 ^ Config.p11.a := by decide

theorem witness_DecodeOfEncode :
    (Instr.ldc 0x7FFFFFF).wf Config.p11 = true ∧ (Instr.ldr 0xFFFF).wf Config.p16 = true ∧
    (0x7FFFFFF : Nat) < 2 ^ Config.p11.ldcWidth.bits ∧ (0x7FFF : Nat) < 2 ^ 15 ∧ (0x7FF : Nat) < 2 ^ Config.p11.a := by
  decide

theorem witness_CodecLosesNoBit : (15 : Nat) < 16 := by decide

/-- The last, padded, group of a stream of five bytes. -/
theorem witness_StreamIsCutIntoPaddedGroups : (1 : Nat) < (([1, 2, 3, 4, 5] : List Byte).length + 3) / 4 := by decide

theorem witness_ResetSetsEveryStateElement :
    (at0 { Config.p11 with maxWords := some 1 } 5 [(1, 1)] []).config.fits ((([1, 2, 3, 4] : List Byte).length + 3) / 4)
      = true ∧ (0x7FF : Nat) < 2 ^ Config.p11.a := by decide

theorem witness_TooLongProgramIsRefused :
    (at0 { Config.p11 with maxWords := some 1 } 5 [] []).config.maxWords = some 1 ∧
    1 < (([1, 2, 3, 4, 5] : List Byte).length + 3) / 4 := by decide

theorem witness_NoStateSurvivesReset :
    (at0 .p11 5 [(1, 1)] [gLdc]).config = (at0 .p11 0 [] []).config ∧ at0 .p11 5 [(1, 1)] [gLdc] ≠ at0 .p11 0 [] [] := by
  decide

theorem witness_InvariantHoldsAfterReset : boot .p11 [0x58] = .next (State.initial .p11 [⟨0x58, 0, 0, 0⟩]) := rfl

/-- A state of a run that is not a reset state, with memory listed, meets the invariant and steps. -/
theorem witness_StepKeepsInvariant :
    (at0 p11fault 9 [(3, 4)] [gStOut]).Inv ∧
    step (at0 p11fault 9 [(3, 4)] [gStOut]) =
      .next { at0 p11fault 9 [(3, 4)] [gStOut] with
        status := .fault, faultRecord := some ⟨.addressOutOfRange, 0, 0x00008009⟩ } :=
  ⟨⟨by decide, by decide, rfl, rfl⟩, rfl⟩

theorem witness_StepOnLdcGroup :
    (at0 .p11 5 [] [gLdc]).status = .run ∧ (at0 .p11 5 [] [gLdc]).store[0]? = some gLdc ∧
    gLdc.word.toNat % 2 ^ 4 = 0x8 := by decide

/-- Each alternative, at the edge: in range, and wrapping out of range. -/
theorem witness_StStoresAccumulator :
    Memory.wf Config.p11.memWords [(3, 4)] ∧ (0x7FF#15).toNat < 2 ^ p11fault.a ∧
    ¬ (0x800#15).toNat < 2 ^ Config.p11.a ∧ Config.p11.addrOobPolicy = .wrap := by decide

theorem witness_StoreAddressFormation :
    (0x7FF#15).toNat < 2 ^ Config.p11.a ∧ 2 ^ Config.p11.a ≤ (0x800#15).toNat ∧ Config.p11.addrOobPolicy = .wrap ∧
    p11fault.addrOobPolicy = .fault ∧ (at0 p11fault 9 [] [gStOut]).store[0]? = some gStOut ∧
    Config.p16.addressWidth = .a16 ∧ (2 : Nat) ^ 15 ≤ 0xFFFF ∧ 0xFFFF < 2 ^ 16 := by decide
theorem witness_StoreAddressFormation_a16 :
    exec (.st 0x7FFF) (at0 .p16 3 [] []) = .next { at0 .p16 3 [(0x7FFF, 3)] [] with pc := 1 } := rfl

theorem witness_StepOnStGroup :
    (at0 .p11 9 [] [gStLast]).store[0]? = some gStLast ∧ gStLast.word.toNat % 2 ^ 4 = 0x9 ∧
    gStLast.word.toNat / 2 ^ 4 % 2 ^ 15 < 2 ^ Config.p11.a ∧
    (at0 .p11 9 [] [gStOut]).store[0]? = some gStOut ∧ gStOut.word.toNat % 2 ^ 4 = 0x9 ∧
    2 ^ Config.p11.a ≤ gStOut.word.toNat / 2 ^ 4 % 2 ^ 15 ∧ Config.p11.addrOobPolicy = .wrap ∧
    p11fault.addrOobPolicy = .fault := by decide

theorem witness_StepOnLdrGroup :
    (at0 .p11 0 [] [gLdr]).status = .run ∧ (at0 .p11 0 [] [gLdr]).store[0]? = some gLdr ∧
    gLdr.word.toNat % 2 ^ 4 = 0xA := by decide

/-- The least shift that reads as negative, under `A = 11`, and the greatest that does not. -/
theorem witness_LdrShiftSignedOrUnsigned :
    (0x400#16).toNat < 2 ^ Config.p11.a ∧ ¬ (0x400#16).toNat < 2 ^ (Config.p11.a - 1) ∧
    (0x3FF#16).toNat < 2 ^ (Config.p11.a - 1) := by decide

theorem witness_LdrAfterStReadsStoredValue :
    Memory.wf Config.p11.memWords [] ∧ (at0 .p11 7 [] []).stAddress 0x800 = some 0 ∧
    (at0 .p11 7 [] []).ldrAddress 0x7F9 = 0 := by decide

theorem witness_BswapReversesBytes : (3 : Nat) < 4 := by decide

theorem witness_BswapLoadsSwappedOperand :
    Config.p16.bswapSource = .acc ∧ p11fault.bswapSource = .memAtAcc ∧ (0x7FF#32).toNat < 2 ^ p11fault.a ∧
    Config.p11.bswapSource = .memAtAcc ∧ ¬ (0x800#32).toNat < 2 ^ Config.p11.a ∧
    Config.p11.addrOobPolicy = .wrap := by decide

theorem witness_StepOnBswapGroup :
    (at0 .p16 5 [] [gBswap]).store[0]? = some gBswap ∧ gBswap.word.toNat % 2 ^ 4 = 0x2 ∧
    Config.p16.bswapSource = .acc ∧ Config.p11.bswapSource = .memAtAcc ∧ (0x7FF#32).toNat < 2 ^ Config.p11.a ∧
    2 ^ Config.p11.a ≤ (0x800#32).toNat ∧ Config.p11.addrOobPolicy = .wrap ∧ p11fault.addrOobPolicy = .fault := by decide

theorem witness_BswapTwice :
    (at0 .p16 5 [] []).config.bswapSource = .acc ∧ (at0 .p11 5 [] []).config.bswapSource = .memAtAcc ∧
    (at0 .p11 5 [] []).config.addrOobPolicy = .wrap := by decide

/-- Every clause of the frames has a next state, with and without a fault. -/
theorem witness_InstructionFrames :
    (nextOf (exec (.ldc 5) (at0 .p11 1 [] []))).isSome = true ∧
    (nextOf (exec (.ldr 5) (at0 .p11 1 [] []))).isSome = true ∧
    (nextOf (exec (.st 0x800) (at0 .p11 1 [] []))).isSome = true ∧
    (at0 .p11 1 [] []).stAddress 0x800 = some 0 ∧
    (nextOf (exec (.st 0x800) (at0 p11fault 1 [] [gStOut]))).isSome = true ∧
    (at0 p11fault 1 [] [gStOut]).stAddress 0x800 = none ∧
    (nextOf (exec .bswap (at0 .p11 1 [] []))).isSome = true ∧ (at0 .p11 1 [] []).bswapOperand.isSome = true ∧
    (nextOf (exec .bswap (at0 p11fault 0x800 [] [gBswap]))).isSome = true ∧
    (at0 p11fault 0x800 [] [gBswap]).bswapOperand = none := by decide

theorem witness_StepExistsOnlyInRun :
    ({ at0 .p11 1 [] [] with status := .done } : State).status = .done ∧
    ({ at0 .p11 1 [] [] with status := .fault } : State).status = .fault ∧
    (at0 .p11 1 [] []).status = .run ∧ (at0 .p11 1 [] []).pc = (at0 .p11 1 [] []).numGroups ∧
    (at0 .p11 1 [] [gLdc]).pc < (at0 .p11 1 [] [gLdc]).numGroups := by decide

theorem witness_StepRunsDecodedInstruction :
    (at0 .p11 1 [] [gLdc]).status = .run ∧ (at0 .p11 1 [] [gLdc]).store[0]? = some gLdc ∧
    (decode Config.p11 gLdc).selected = .instr (.ldc 0x7FFFFFF) := by decide

theorem witness_UnknownOpcodePolicyDecides :
    (at0 .p11 1 [] [gUnknown]).store[0]? = some gUnknown ∧ gUnknown.word.toNat % 2 ^ 4 ∉ [0x2, 0x8, 0x9, 0xA] ∧
    Config.p11.unknownOpcodePolicy = .fault ∧ p11skip.unknownOpcodePolicy = .skip := by decide

theorem witness_PcAdvancesByOneOrFaults :
    (at0 .p11 1 [] [gLdc]).status = .run ∧ (at0 .p11 1 [] [gLdc]).pc < (at0 .p11 1 [] [gLdc]).numGroups := by decide

theorem witness_RunEndsWithinOneStepPerGroup :
    (at0 .p11 1 [] [gLdc]).status = .run ∧ (at0 .p11 1 [] [gLdc]).pc ≤ (at0 .p11 1 [] [gLdc]).numGroups ∧
    ({ at0 .p11 1 [] [gLdc] with pc := 1 } : State).pc ≤ (at0 .p11 1 [] [gLdc]).numGroups := by decide
theorem witness_RunEndsWithinOneStepPerGroup_boot :
    boot .p11 [0x58] = .next (State.initial .p11 [⟨0x58, 0, 0, 0⟩]) := rfl

theorem witness_FaultsExactlyWhenDue :
    (at0 .p11 1 [] [gUnknown]).status = .run ∧ (at0 .p11 1 [] [gUnknown]).store[0]? = some gUnknown ∧
    gLdc.b0.toNat % 16 = 0x8 ∧ gLdr.b0.toNat % 16 = 0xA := by decide
theorem witness_FaultDue_unknown : (at0 .p11 1 [] [gUnknown]).FaultDue gUnknown .unknownOpcode := ⟨rfl, by decide⟩
theorem witness_FaultDue_st : (at0 p11fault 1 [] [gStOut]).FaultDue gStOut .addressOutOfRange :=
  ⟨rfl, .inl ⟨by decide, by decide⟩⟩
theorem witness_FaultDue_bswap : (at0 p11fault 0x800 [] [gBswap]).FaultDue gBswap .addressOutOfRange :=
  ⟨rfl, .inr ⟨by decide, rfl, by decide⟩⟩

theorem witness_FaultLeavesStateAsBefore :
    step (at0 .p11 1 [] [gUnknown]) =
      .next { at0 .p11 1 [] [gUnknown] with
        status := .fault, faultRecord := some ⟨.unknownOpcode, 0, 0x0000000F⟩ } := rfl

theorem witness_NoStepChangesTheStore :
    step (at0 .p11 9 [] [gStLast]) = .next { at0 .p11 9 [(0x7FF, 9)] [gStLast] with pc := 1 } := rfl

theorem witness_WhoWritesAccAndMemory :
    Memory.wf Config.p11.memWords [(3, 4)] ∧
    stepMem (at0 .p11 9 [(3, 4)] [gStLast]) = some [(3, 4), (0x7FF, 9)] ∧
    Memory.read [(3, 4), (0x7FF, 9)] 0x7FF ≠ Memory.read [(3, 4)] 0x7FF ∧
    stepAcc (at0 .p11 9 [(3, 4)] [gLdc]) = some 0x7FFFFFF ∧ (0x7FFFFFF : Word) ≠ 9 := by decide

theorem witness_RunOutput :
    ({ at0 .p11 1 [] [] with status := .done } : State).status = .done ∧ (0x7FF : Nat) < 2 ^ Config.p11.a ∧
    ({ at0 .p11 1 [] [] with status := .fault, faultRecord := some ⟨.unknownOpcode, 0, 0⟩ } : State).status = .fault ∧
    (at0 .p11 1 [] []).status = .run := by decide

theorem witness_CorePortsShowTheStatus_done :
    ({ at0 .p11 1 [(0x7FF, 1)] [] with status := .done } : State).Inv :=
  ⟨by decide, by decide, rfl, ⟨rfl, rfl⟩⟩
theorem witness_CorePortsShowTheStatus_fault :
    ({ at0 .p11 1 [] [gUnknown] with
      status := .fault, faultRecord := some ⟨.unknownOpcode, 0, 0x0000000F⟩ } : State).Inv :=
  ⟨by decide, by decide, rfl, ⟨gUnknown, .unknownOpcode, rfl, rfl, rfl, by decide⟩⟩
theorem witness_CorePortsShowTheStatus_run :
    (at0 .p11 1 [] [gLdc]).Inv ∧ (at0 .p11 1 [] [gLdc]).pc < (at0 .p11 1 [] [gLdc]).numGroups :=
  ⟨⟨by decide, by decide, rfl, rfl⟩, by decide⟩

theorem witness_ExecuteObservesTheEnd :
    Config.fits { Config.p11 with maxWords := some 1 } ((([0x58] : List Byte).length + 3) / 4) = true := by decide

theorem witness_MovShiftLeadsToSource : (0x7FF : Nat) < 2 ^ Config.p11.a := by decide

theorem witness_MovReadsSourceIffTracked :
    (0x7FF : Nat) < 2 ^ (at0 .p11 7 [] []).config.a ∧
    ((at0 .p11 7 [] []).acc.toNat : Int) % 2 ^ Config.p11.a = 7 % 2 ^ Config.p11.a := by decide

theorem witness_SetLeavesLiteralInMemory :
    (at0 .p11 1 [] [encodeInt 0x8 (-1), encodeInt 0x9 0x7FF]).status = .run ∧ Memory.wf Config.p11.memWords [] ∧
    (0x7FF : Nat) < 2 ^ 15 ∧ 0x7FF < 2 ^ Config.p11.a ∧
    (at0 .p11 1 [] [encodeInt 0x8 (-1), encodeInt 0x9 0x7FF]).store[0]? = some (encodeInt 0x8 (-1)) ∧
    (at0 .p11 1 [] [encodeInt 0x8 (-1), encodeInt 0x9 0x7FF]).store[0 + 1]? = some (encodeInt 0x9 0x7FF) := by decide

theorem witness_SymbolAllocation :
    (⟨[['x']], 0, []⟩ : Asm.AsmState).resolve ['x'] = some 0 ∧ (⟨[['x']], 0, []⟩ : Asm.AsmState).resolve ['y'] = none ∧
    (⟨[['x']], 0, []⟩ : Asm.AsmState).symbols.length < 2 ^ Config.p11.a := by decide
theorem witness_SymbolAllocation_full :
    (⟨List.replicate (2 ^ Config.p11.a) ['x'], 0, []⟩ : Asm.AsmState).resolve ['y'] = none ∧
    2 ^ Config.p11.a ≤ (⟨List.replicate (2 ^ Config.p11.a) ['x'], 0, []⟩ : Asm.AsmState).symbols.length := by
  generalize 2 ^ Config.p11.a = n
  exact ⟨List.idxOf?_eq_none_iff.2 fun h => absurd (List.eq_of_mem_replicate h) (by decide), by simp⟩

theorem witness_PcFitsTheIndexPort :
    ({ at0 { Config.p11 with maxWords := some 1 } 1 [] [gLdc] with pc := 1 } : State).Inv :=
  ⟨by decide, by decide, by decide, rfl⟩

end Sys2Proof.Tests
end

section
/-! PROOFS. The bound `MAX_WORDS`: the load that exceeds it (R14, I15), and the width of the index ports (R79). -/

namespace Sys2Proof

/-- `N = ceil(L / 4)` (R38). -/
theorem groupsOf_length (stream : List Byte) : (groupsOf stream).length = (stream.length + 3) / 4 := by
  induction stream using groupsOf.induct with
  | case1 => rfl
  | case2 => simp [groupsOf]
  | case3 => simp [groupsOf]
  | case4 => simp [groupsOf]
  | case5 x0 x1 x2 x3 rest ih =>
    simp only [groupsOf, List.length_cons, ih]
    omega

theorem Config.fits_iff_le {c : Config} {m : Nat} (hm : c.maxWords = some m) (n : Nat) : c.fits n = true ↔ n ≤ m := by
  simp [Config.fits, hm]

end Sys2Proof

namespace Sys2Proof.Machine

theorem boot_eq_refused {c : Config} {stream : List Byte} (h : ¬ c.fits ((stream.length + 3) / 4) = true) :
    boot c stream = .refused .programTooLong := by
  rw [← groupsOf_length] at h
  exact if_neg h

/-- Settles O12: the number of groups made from the stream is over the bound that `boot` compares it with. -/
theorem tooLongProgramIsRefused : Obligations.TooLongProgramIsRefused := by
  intro s stream m hm hlong
  have hfits : ¬ s.config.fits ((stream.length + 3) / 4) = true := by
    rw [Config.fits_iff_le hm]
    omega
  exact boot_eq_refused hfits

/-- The index ports can hold `m` in exactly the widths that are at least `indexWidth m` (R79). -/
theorem indexWidth_le_iff_lt_two_pow (m w : Nat) : indexWidth m ≤ w ↔ m < 2 ^ w := by
  unfold indexWidth
  split
  next hzero => simp [hzero]
  next hne => exact Nat.log2_lt hne

theorem State.Inv.pc_le_maxWords {s : State} {m : Nat} (hinv : s.Inv) (hm : s.config.maxWords = some m) : s.pc ≤ m :=
  hinv.pcInRange.trans ((Config.fits_iff_le hm _).1 hinv.programFits)

/-- Settles O43: `pc <= N <= MAX_WORDS`, and a width holds `MAX_WORDS` exactly when it is at least `indexWidth`. -/
theorem pcFitsTheIndexPort : Obligations.PcFitsTheIndexPort := by
  intro s m hinv hm
  have hpc : s.pc ≤ m := hinv.pc_le_maxWords hm
  have hwidth : m < 2 ^ indexWidth m := (indexWidth_le_iff_lt_two_pow m _).1 le_rfl
  exact ⟨hpc, hpc.trans_lt hwidth, fun w hw => (indexWidth_le_iff_lt_two_pow m w).2 hw⟩

end Sys2Proof.Machine
end

section
/-! PROOFS. The load and reset (R28, R29, R100), and the invariant where a run starts. -/

namespace Sys2Proof.Machine

theorem boot_eq_next {c : Config} {stream : List Byte} (h : c.fits ((stream.length + 3) / 4) = true) :
    boot c stream = .next (State.initial c (groupsOf stream)) := by
  rw [← groupsOf_length] at h
  exact if_pos h

/-- All that a load can do when it answers a state. -/
theorem boot_next {c : Config} {stream : List Byte} {s : State} (h : boot c stream = .next s) :
    c.fits (groupsOf stream).length = true ∧ s = State.initial c (groupsOf stream) := by
  unfold boot at h
  split at h
  · cases h
    exact ⟨‹_›, rfl⟩
  · cases h

theorem State.initial_inv {c : Config} {store : List InstrGroup} (h : c.fits store.length = true) :
    (State.initial c store).Inv where
  memWf := Memory.wf_nil _
  pcInRange := Nat.zero_le _
  programFits := h
  statusConsistent := rfl

/-- Settles O11: a stream that fits is loaded into `State.initial`, whose fields are R28's values. -/
theorem resetSetsEveryStateElement : Obligations.ResetSetsEveryStateElement := by
  intro s stream hfits
  exact ⟨State.initial s.config (groupsOf stream), boot_eq_next hfits, rfl, fun a _ => State.memRead_initial a _ _,
    rfl, groupsOf_length stream, rfl, rfl, rfl, rfl⟩

/-- Settles O13: reset is the load with the parameters of the state, and reads nothing else of it. -/
theorem noStateSurvivesReset : Obligations.NoStateSurvivesReset := by
  intro s s' stream hconfig
  exact congrArg (fun c => boot c stream) hconfig

/-- Settles O15: every load that answers, and `State.reset`, is a `State.initial` whose store fits. -/
theorem invariantHoldsAfterReset : Obligations.InvariantHoldsAfterReset := by
  refine ⟨fun c stream s hboot => ?_, State.initial_inv rfl⟩
  obtain ⟨hfits, rfl⟩ := boot_next hboot
  exact State.initial_inv hfits

end Sys2Proof.Machine
end

section
/-! PROOFS. What a decoded group says of its bits, and the fault it has due (R51, R90). -/

namespace Sys2Proof

theorem select_instr_opcode {c : Config} {op : Opcode} {f : Field} {i : Instr} (h : select c op f = .instr i) :
    op = i.opcode := by
  rcases select_cases c op f with ⟨hop, hs⟩ | ⟨hop, hs⟩ | ⟨hop, hs⟩ | ⟨hop, hs⟩ | ⟨_, hs⟩ <;>
    rw [hs] at h <;> cases h <;> exact hop

/-- The low half of the first byte is the opcode of the instruction the group decodes to (R46, R55). -/
theorem b0_of_select {c : Config} {g : InstrGroup} {i : Instr} (h : select c g.opcode g.field = .instr i) :
    g.b0.toNat % 16 = i.opcode.toNat := by
  rw [← InstrGroup.opcode_toNat_eq_b0, select_instr_opcode h]

/-- ST's operand is `word[18:4]` (R51, R81). -/
theorem addr_of_select_st {c : Config} {g : InstrGroup} {addr : BitVec 15}
    (h : select c g.opcode g.field = .instr (.st addr)) : addr.toNat = g.word.toNat / 2 ^ 4 % 2 ^ 15 := by
  rw [select_instr_opcode h, Instr.opcode, select_st] at h
  cases h
  rw [stOperand_toNat, InstrGroup.field_toNat]

/-- The kind UNKNOWN, read from the bits: the twelve opcodes of R56. -/
theorem select_eq_unknown_iff (c : Config) (g : InstrGroup) :
    select c g.opcode g.field = .unknown ↔
      g.b0.toNat % 16 ≠ 0x2 ∧ g.b0.toNat % 16 ≠ 0x8 ∧ g.b0.toNat % 16 ≠ 0x9 ∧ g.b0.toNat % 16 ≠ 0xA := by
  rw [← InstrGroup.opcode_toNat_eq_b0]
  rcases select_cases c g.opcode g.field with ⟨hop, _⟩ | ⟨hop, _⟩ | ⟨hop, _⟩ | ⟨hop, _⟩ | ⟨hop, hs⟩
  · simp [hop, select_ldc]
  · simp [hop, select_st]
  · simp [hop, select_ldr]
  · simp [hop, select_bswap]
  · simp only [← BitVec.toNat_inj, ne_eq] at hop
    simp only [hs, true_iff]
    tauto

end Sys2Proof

namespace Sys2Proof.Machine

theorem boundedAddress_eq_none_iff (t : Nat) (s : State) :
    s.boundedAddress t = none ↔ s.config.addrOobPolicy = .fault ∧ s.config.memWords ≤ t := by
  rcases boundedAddress_cases t s with ⟨ht, e⟩ | ⟨_, hp, e⟩ | ⟨ht, hp, e⟩
  · simp [e, ht]
  · simp [e, hp]
  · simp [e, hp, ht]

/-- Where there is a bounded address it is the remainder, since one in range is its own remainder. -/
theorem boundedAddress_eq_mod {t a : Nat} {s : State} (h : s.boundedAddress t = some a) :
    a = t % s.config.memWords := by
  rcases boundedAddress_cases t s with ⟨ht, e⟩ | ⟨_, _, e⟩ | ⟨_, _, e⟩ <;> rw [e] at h <;> cases h
  · exact (Nat.mod_eq_of_lt ht).symm
  · rfl

theorem bswapOperand_eq_none_iff (s : State) :
    s.bswapOperand = none ↔
      s.config.bswapSource = .memAtAcc ∧ s.config.addrOobPolicy = .fault ∧ s.config.memWords ≤ s.acc.toNat := by
  rw [← boundedAddress_eq_none_iff, ← State.bswapAddress]
  rcases bswapOperand_cases s with ⟨hsrc, e⟩ | ⟨_, a, ha, e⟩ | ⟨hsrc, ha, e⟩
  · simp [e, hsrc]
  · simp [e, ha]
  · simp [e, hsrc, ha]

/-- UNKNOWN_OPCODE is due exactly where the decoder selects no instruction and the policy is FAULT (R74, R90). -/
theorem faultDue_unknownOpcode_iff (s : State) (g : InstrGroup) :
    s.FaultDue g .unknownOpcode ↔
      s.config.unknownOpcodePolicy = .fault ∧ select s.config g.opcode g.field = .unknown := by
  rw [select_eq_unknown_iff, State.FaultDue]

/-- ADDRESS_OUT_OF_RANGE is due exactly where the group decodes to an instruction that finds no address (R90). -/
theorem faultDue_addressOutOfRange_iff {s : State} {g : InstrGroup} {i : Instr}
    (h : select s.config g.opcode g.field = .instr i) :
    s.FaultDue g .addressOutOfRange ↔
      (∃ addr, i = .st addr ∧ s.stAddress addr = none) ∨ (i = .bswap ∧ s.bswapOperand = none) := by
  have hop := b0_of_select h
  cases i with
  | ldc imm => simp [State.FaultDue, hop, Instr.opcode]
  | ldr shift => simp [State.FaultDue, hop, Instr.opcode]
  | st addr =>
    have haddr := addr_of_select_st h
    simp [State.FaultDue, hop, Instr.opcode, haddr, State.stAddress, boundedAddress_eq_none_iff, Config.memWords]
  | bswap =>
    simp [State.FaultDue, hop, Instr.opcode, bswapOperand_eq_none_iff, Config.memWords, and_left_comm]

end Sys2Proof.Machine
end

section
/-! PROOFS. Every step keeps the invariant: one lemma for each update of the state that a step makes. -/

namespace Sys2Proof.Machine

theorem statusConsistent_of_run {s : State} (hrun : s.status = .run) (hrecord : s.faultRecord = none) :
    s.StatusConsistent := by
  simpa [State.StatusConsistent, hrun] using hrecord

theorem State.Inv.faultRecord_eq_none {s : State} (h : s.Inv) (hrun : s.status = .run) : s.faultRecord = none := by
  simpa [State.StatusConsistent, hrun] using h.statusConsistent

/-- In RUN the status says nothing of `acc`. In FAULT it does: the recorded cause of a BSWAP is due by `acc`. -/
theorem State.Inv.setAcc {s : State} (h : s.Inv) (hrun : s.status = .run) (v : Word) : (s.setAcc v).Inv where
  memWf := h.memWf
  pcInRange := h.pcInRange
  programFits := h.programFits
  statusConsistent := statusConsistent_of_run hrun (h.faultRecord_eq_none hrun)

theorem State.Inv.memWrite {s : State} (h : s.Inv) {a : Nat} (ha : a < s.config.memWords) (v : Word) :
    (s.memWrite a v).Inv where
  memWf := Memory.write_wf h.memWf ha
  pcInRange := h.pcInRange
  programFits := h.programFits
  statusConsistent := h.statusConsistent

theorem State.Inv.advance {s : State} (h : s.Inv) (hrun : s.status = .run) (hpc : s.pc ≠ s.numGroups) :
    s.advance.Inv where
  memWf := h.memWf
  pcInRange := Nat.lt_of_le_of_ne h.pcInRange hpc
  programFits := h.programFits
  statusConsistent := statusConsistent_of_run hrun (h.faultRecord_eq_none hrun)

theorem State.Inv.finish {s : State} (h : s.Inv) (hrun : s.status = .run) (hpc : s.pc = s.numGroups) :
    s.finish.Inv where
  memWf := h.memWf
  pcInRange := h.pcInRange
  programFits := h.programFits
  statusConsistent := ⟨h.faultRecord_eq_none hrun, hpc⟩

/-- The taking of a fault that is due (R91, R92). -/
theorem State.Inv.takeFault {s : State} (h : s.Inv) {g : InstrGroup} {cause : FaultCause}
    (hg : s.currentGroup = some g) (hdue : s.FaultDue g cause) :
    State.Inv { s with status := .fault, faultRecord := some ⟨cause, s.pc, g.word⟩ } where
  memWf := h.memWf
  pcInRange := h.pcInRange
  programFits := h.programFits
  statusConsistent := ⟨g, cause, hg, rfl, by cases cause <;> exact hdue⟩

/-- The instruction at `pc` keeps the invariant: what it stores is at an address of the memory, and its fault is due. -/
theorem exec_keeps_inv {s t : State} {g : InstrGroup} {i : Instr} (h : s.Inv) (hrun : s.status = .run)
    (hpc : s.pc ≠ s.numGroups) (hg : s.currentGroup = some g) (hi : select s.config g.opcode g.field = .instr i)
    (ht : exec i s = .next t) : t.Inv := by
  cases exec_next ht with
  | load v _ => exact (h.setAcc hrun v).advance hrun hpc
  | store addr a _ ha => exact (h.memWrite (boundedAddress_lt ha) s.acc).advance hrun hpc
  | fault g' hg' hfault =>
    obtain rfl : g = g' := Option.some.inj (hg.symm.trans hg')
    exact h.takeFault hg ((faultDue_addressOutOfRange_iff hi).2 hfault)

/-- Settles O16, by the cases of what a step can do. -/
theorem stepKeepsInvariant : Obligations.StepKeepsInvariant := by
  intro s t hinv hstep
  obtain ⟨hrun, hresult⟩ := step_next hstep
  cases hresult with
  | finish hpc => exact hinv.finish hrun hpc
  | instr g i _ hpc hg hi ht => exact exec_keeps_inv hinv hrun hpc hg hi ht
  | skip g hpc _ _ _ => exact hinv.advance hrun hpc
  | unknown g _ hg hi hp => exact hinv.takeFault hg ((faultDue_unknownOpcode_iff s g).2 ⟨hp, hi⟩)

end Sys2Proof.Machine
end

section
/-! PROOFS. Who writes the accumulator and the memory (R20, R22, R41). -/

namespace Sys2Proof.Machine

/-- A step that changes `acc` or the memory runs an instruction: its other outcomes change neither. -/
theorem exec_of_step_writes {s t : State} (h : step s = .next t) (hne : t.acc ≠ s.acc ∨ t.mem ≠ s.mem) :
    ∃ g i, s.currentGroup = some g ∧ select s.config g.opcode g.field = .instr i ∧ exec i s = .next t := by
  obtain ⟨_, hresult⟩ := step_next h
  cases hresult with
  | instr g i _ _ hg hi ht => exact ⟨g, i, hg, hi, ht⟩
  | finish _ => simp at hne
  | skip _ _ _ _ _ => simp at hne
  | unknown _ _ _ _ _ => simp at hne

/-- Only BSWAP, LDC and LDR change `acc` (R20). -/
theorem opcode_of_exec_acc_ne {i : Instr} {s t : State} (h : exec i s = .next t) (hne : t.acc ≠ s.acc) :
    i.opcode.toNat ∈ [0x2, 0x8, 0xA] := by
  cases exec_next h with
  | load v hi =>
    cases i with
    | st addr => exact absurd rfl (hi addr)
    | ldc _ => simp [Instr.opcode]
    | ldr _ => simp [Instr.opcode]
    | bswap => simp [Instr.opcode]
  | store _ _ _ _ => simp at hne
  | fault _ _ _ => simp at hne

/-- An instruction that changes a data word is an ST to its address, and the word becomes `acc` (R22, R41). -/
theorem st_of_exec_memRead_ne {i : Instr} {s t : State} {b : Nat} (hm : Memory.wf s.config.memWords s.mem)
    (h : exec i s = .next t) (hne : t.memRead b ≠ s.memRead b) :
    ∃ addr, i = .st addr ∧ s.stAddress addr = some b ∧ t.memRead b = s.acc := by
  cases exec_next h with
  | load v _ => exact absurd rfl hne
  | fault _ _ _ => exact absurd rfl hne
  | store addr a hi ha =>
    have hread : (s.memWrite a s.acc).advance.memRead b = if b = a then s.acc else s.memRead b :=
      Memory.read_write hm.1 a s.acc b
    obtain rfl : b = a := by
      by_contra hba
      exact hne (hread.trans (if_neg hba))
    exact ⟨addr, hi, ha, hread.trans (if_pos rfl)⟩

/-- Settles O40: a step that changes either runs an instruction, and the group's bits tell which. -/
theorem whoWritesAccAndMemory : Obligations.WhoWritesAccAndMemory := by
  intro s t hm hstep
  refine ⟨fun hacc => ?_, fun b hne => ?_⟩
  · obtain ⟨g, i, hg, hi, ht⟩ := exec_of_step_writes hstep (.inl hacc)
    exact ⟨g, hg, b0_of_select hi ▸ opcode_of_exec_acc_ne ht hacc⟩
  · have hmem : t.mem ≠ s.mem := fun e => hne (congrArg (fun m => Memory.read m b) e)
    obtain ⟨g, i, hg, hi, ht⟩ := exec_of_step_writes hstep (.inr hmem)
    obtain ⟨addr, rfl, haddr, hread⟩ := st_of_exec_memRead_ne hm ht hne
    refine ⟨g, hg, b0_of_select hi, ?_, hread⟩
    rw [← addr_of_select_st hi]
    exact boundedAddress_eq_mod haddr

end Sys2Proof.Machine
end

section
/-! PROOFS. The stream as groups (R38, R39), and the run of the empty stream (R70). -/

namespace Sys2Proof

/-- Group `i` is the bytes `4i .. 4i+3`, and 0x00 for a byte past the end (R39). -/
theorem groupsOf_getElem? (stream : List Byte) (i : Nat) (h : i < (groupsOf stream).length) :
    (groupsOf stream)[i]? = some ⟨stream.getD (4 * i) 0, stream.getD (4 * i + 1) 0, stream.getD (4 * i + 2) 0,
      stream.getD (4 * i + 3) 0⟩ := by
  induction stream using groupsOf.induct generalizing i with
  | case1 => cases h
  | case2 x0 | case3 x0 x1 | case4 x0 x1 x2 =>
    obtain rfl : i = 0 := Nat.lt_one_iff.1 h
    rfl
  | case5 x0 x1 x2 x3 rest ih =>
    cases i with
    | zero => rfl
    | succ j => exact ih j (Nat.lt_of_succ_lt_succ h)

end Sys2Proof

namespace Sys2Proof.Machine

/-- Settles O10: each group takes four bytes off the stream, and the last group what is left. -/
theorem streamIsCutIntoPaddedGroups : Obligations.StreamIsCutIntoPaddedGroups := by
  intro stream
  refine ⟨groupsOf_length stream, fun i hi => groupsOf_getElem? stream i ?_⟩
  rwa [groupsOf_length]

/-- The last step of a run, at `pc = N` (R70). -/
theorem step_eq_finish {s : State} (hrun : s.status = .run) (hpc : s.pc = s.numGroups) : step s = .next s.finish := by
  rw [step, hrun]
  exact if_pos hpc

/-- Settles O14: the empty stream fits, and its load stands at `pc = N = 0`. -/
theorem resetStateIsTheEmptyRun : Obligations.ResetStateIsTheEmptyRun :=
  ⟨boot_eq_next rfl, step_eq_finish rfl rfl, rfl⟩

end Sys2Proof.Machine
end

section
/-! PROOFS. A read of the memory after a sequence of writes (R33), and what no step writes (R44). -/

namespace Sys2Proof.Machine

theorem Memory.wf_mono {size size' : Nat} {m : Memory} (h : m.wf size) (hle : size ≤ size') : m.wf size' :=
  ⟨h.1, fun cell hcell => ⟨(h.2 cell hcell).1.trans_le hle, (h.2 cell hcell).2⟩⟩

/-- A write has no bound of its own on the address, so the canonical form is kept within some larger size. -/
theorem Memory.exists_wf_write {m : Memory} (h : ∃ size, m.wf size) (a : Nat) (v : Word) :
    ∃ size, (m.write a v).wf size := by
  obtain ⟨size, hm⟩ := h
  exact ⟨max size (a + 1), Memory.write_wf (Memory.wf_mono hm (le_max_left _ _)) (le_max_right size (a + 1))⟩

/-- The reset memory after the writes of a list, the first one first (R16). -/
def Memory.afterWrites (writes : List (Nat × Word)) : Memory :=
  writes.foldl (fun m w => Memory.write m w.1 w.2) []

theorem Memory.afterWrites_concat (writes : List (Nat × Word)) (w : Nat × Word) :
    Memory.afterWrites (writes ++ [w]) = (Memory.afterWrites writes).write w.1 w.2 := by
  simp [Memory.afterWrites]

theorem Memory.exists_wf_afterWrites (writes : List (Nat × Word)) : ∃ size, (Memory.afterWrites writes).wf size := by
  induction writes using List.reverseRecOn with
  | nil => exact ⟨0, Memory.wf_nil 0⟩
  | append_singleton ws w ih =>
    rw [Memory.afterWrites_concat]
    exact Memory.exists_wf_write ih w.1 w.2

/-- One more write is what its own address reads as, and no other address sees it. -/
theorem Memory.read_afterWrites_concat (writes : List (Nat × Word)) (w : Nat × Word) (a : Nat) :
    (Memory.afterWrites (writes ++ [w])).read a = if a = w.1 then w.2 else (Memory.afterWrites writes).read a := by
  obtain ⟨size, hwf⟩ := Memory.exists_wf_afterWrites writes
  rw [Memory.afterWrites_concat, Memory.read_write hwf.1]

/-- Settles O38, by induction on the writes from the last one back. -/
theorem memReadReturnsMostRecentWrite : Obligations.MemReadReturnsMostRecentWrite := by
  intro writes a
  rw [← Memory.afterWrites]
  induction writes using List.reverseRecOn with
  | nil => rfl
  | append_singleton ws w ih =>
    rw [Memory.read_afterWrites_concat, List.reverse_concat, List.find?_cons]
    by_cases ha : a = w.1
    · simp [ha]
    · have hne : (w.1 == a) = false := beq_false_of_ne (Ne.symm ha)
      rw [if_neg ha, hne]
      exact ih

/-- No instruction writes the store or the parameters (R44). -/
theorem exec_keeps_store_config {i : Instr} {s t : State} (h : exec i s = .next t) :
    t.store = s.store ∧ t.config = s.config := by
  cases exec_next h with
  | load _ _ => exact ⟨rfl, rfl⟩
  | store _ _ _ _ => exact ⟨rfl, rfl⟩
  | fault _ _ _ => exact ⟨rfl, rfl⟩

/-- Settles O39, by the cases of what a step can do. -/
theorem noStepChangesTheStore : Obligations.NoStepChangesTheStore := by
  intro s t hstep
  obtain ⟨_, hresult⟩ := step_next hstep
  cases hresult with
  | finish _ => exact ⟨rfl, rfl⟩
  | instr _ _ _ _ _ _ ht => exact exec_keeps_store_config ht
  | skip _ _ _ _ _ => exact ⟨rfl, rfl⟩
  | unknown _ _ _ _ _ => exact ⟨rfl, rfl⟩

end Sys2Proof.Machine
end

section
/-! PROOFS. The address ST forms and the addresses it cannot reach, where LDR can (R34). -/

namespace Sys2Proof.Machine

theorem memWords_a16 {c : Config} (h : c.addressWidth = .a16) : c.memWords = 65536 := by
  rcases memWords_cases c with ⟨h11, _⟩ | ⟨_, hw⟩
  · cases h11.symm.trans h
  · exact hw

/-- Under WRAP every bounded address is a remainder, one in range too (R12). -/
theorem boundedAddress_of_wrap {s : State} (h : s.config.addrOobPolicy = .wrap) (t : Nat) :
    s.boundedAddress t = some (t % s.config.memWords) := by
  rcases boundedAddress_cases t s with ⟨ht, e⟩ | ⟨_, _, e⟩ | ⟨_, hp, _⟩
  · rw [e, Nat.mod_eq_of_lt ht]
  · exact e
  · cases h.symm.trans hp

/-- The 15 bits of ST's operand pass the end of the memory only under `A = 11` (R34). -/
theorem a11_of_memWords_le_addr {addr : BitVec 15} {c : Config} (h : c.memWords ≤ addr.toNat) :
    c.addressWidth = .a11 := by
  have haddr := addr.isLt
  rcases memWords_cases c with ⟨h11, _⟩ | ⟨_, hw⟩
  · exact h11
  · omega

theorem exec_st_of_no_address {addr : BitVec 15} {s : State} (h : s.stAddress addr = none) :
    exec (.st addr) s = raise .addressOutOfRange s := by
  simp [exec, execSt, h]

/-- ST writes below `2^15`: the address it forms is never above its operand (R34). -/
theorem stAddress_lt {addr : BitVec 15} {s : State} {a : Nat} (h : s.stAddress addr = some a) : a < 2 ^ 15 := by
  rw [boundedAddress_eq_mod h]
  exact (Nat.mod_le _ _).trans_lt addr.isLt

/-- ST changes no word at `2^15` or above, in any memory (R34). -/
theorem exec_st_memRead_high {addr : BitVec 15} {s t : State} (h : exec (.st addr) s = .next t) {b : Nat}
    (hb : 2 ^ 15 ≤ b) : t.memRead b = s.memRead b := by
  cases exec_next h with
  | load _ _ => rfl
  | fault _ _ _ => rfl
  | store _ a _ ha => exact Memory.read_write_ne ((stAddress_lt ha).trans_le hb).ne' s.acc s.mem

/-- LDR reaches every word of the memory, whatever `acc` is (R82). -/
theorem exists_ldrAddress_eq {b : Nat} {s : State} (hb : b < s.config.memWords) :
    ∃ shift : BitVec 16, s.ldrAddress shift = b := by
  refine ⟨BitVec.ofNat 16 b - s.acc.setWidth 16, ?_⟩
  rw [State.ldrAddress, BitVec.toNat_sub, BitVec.toNat_ofNat, BitVec.toNat_setWidth]
  rcases memWords_cases s.config with ⟨_, hw⟩ | ⟨_, hw⟩ <;> rw [hw] at hb ⊢ <;> omega

/-- Settles O20: the cases of `boundedAddress` for ST's operand, and the words that only LDR reaches. -/
theorem storeAddressFormation : Obligations.StoreAddressFormation := by
  intro addr s
  refine ⟨boundedAddress_inRange, a11_of_memWords_le_addr, fun _ hwrap => boundedAddress_of_wrap hwrap _,
    fun hout hfault => ?_, fun h16 b hb => ⟨fun t ht => exec_st_memRead_high ht hb, fun hlt => ?_⟩⟩
  · have hnone : s.stAddress addr = none := (boundedAddress_eq_none_iff _ _).2 ⟨hfault, hout⟩
    refine ⟨hnone, fun g hg => ?_⟩
    exact ⟨_, (exec_st_of_no_address hnone).trans (raise_of_currentGroup hg _), rfl, rfl, rfl⟩
  · exact exists_ldrAddress_eq (hlt.trans_eq (memWords_a16 h16).symm)

end Sys2Proof.Machine
end

section
/-! PROOFS. The decoder on an encoding (R57). -/

namespace Sys2Proof

theorem Config.a_le (c : Config) : c.a ≤ 16 := by cases h : c.addressWidth <;> simp [Config.a, h, AddressWidth.bits]

/-- A group decodes as its opcode selects (R50), and an encoding holds the opcode and the field it was made of. -/
theorem decode_encodeField (c : Config) (op : Opcode) (f : Field) :
    decode c (encodeField op f) = ⟨op, select c op f⟩ := by
  simp [decode]

/-- An operand within its width is all that its opcode reads of the field (R51, R57). -/
theorem select_of_wf {c : Config} {i : Instr} (h : i.wf c = true) : select c i.opcode i.field = .instr i := by
  cases i with
  | ldc imm =>
    have hlt : imm.toNat < 2 ^ c.ldcWidth.bits := of_decide_eq_true h
    have hread : ldcOperand c imm = imm := BitVec.eq_of_toNat_eq (by rw [ldcOperand_toNat, Nat.mod_eq_of_lt hlt])
    rw [Instr.opcode, Instr.field, select_ldc, hread]
  | st addr =>
    have hread : stOperand (addr.setWidth 28) = addr := BitVec.eq_of_toNat_eq (by
      rw [stOperand_toNat, BitVec.toNat_setWidth_of_le (by decide), Nat.mod_eq_of_lt addr.isLt])
    rw [Instr.opcode, Instr.field, select_st, hread]
  | ldr shift =>
    have hlt : shift.toNat < 2 ^ c.a := of_decide_eq_true h
    have hread : ldrOperand c (shift.setWidth 28) = shift := BitVec.eq_of_toNat_eq (by
      rw [ldrOperand_toNat, BitVec.toNat_setWidth_of_le (by decide), Nat.mod_eq_of_lt hlt])
    rw [Instr.opcode, Instr.field, select_ldr, hread]
  | bswap => exact select_bswap c _

theorem decode_encode_of_wf {c : Config} {i : Instr} (h : i.wf c = true) :
    decode c (encode i) = ⟨i.opcode, .instr i⟩ := by
  rw [encode, decode_encodeField, select_of_wf h]

/-- `encode(op, v)` is the group of the instruction whose opcode is `op` and whose field is `v` (R48), so it decodes to
that instruction where `v` fits (R57). -/
theorem decode_encodeInt_of_wf {c : Config} {i : Instr} {op v : Nat} (hop : i.opcode = BitVec.ofNat 4 op)
    (hfield : i.field = BitVec.ofNat 28 v) (hwf : i.wf c = true) :
    decode c (encodeInt op v) = ⟨BitVec.ofNat 4 op, .instr i⟩ := by
  rw [encodeInt, BitVec.ofInt_natCast, ← hop, ← hfield]
  exact decode_encode_of_wf hwf

theorem decode_encodeInt_ldc {c : Config} {v : Nat} (h : v < 2 ^ c.ldcWidth.bits) :
    decode c (encodeInt 0x8 v) = ⟨0x8, .instr (.ldc (BitVec.ofNat 28 v))⟩ :=
  decode_encodeInt_of_wf rfl rfl (decide_eq_true ((Nat.mod_le _ _).trans_lt h))

theorem decode_encodeInt_st (c : Config) {v : Nat} (h : v < 2 ^ 15) :
    decode c (encodeInt 0x9 v) = ⟨0x9, .instr (.st (BitVec.ofNat 15 v))⟩ :=
  decode_encodeInt_of_wf rfl (BitVec.setWidth_ofNat_of_le_of_lt (by decide) h) rfl

theorem decode_encodeInt_ldr {c : Config} {v : Nat} (h : v < 2 ^ c.a) :
    decode c (encodeInt 0xA v) = ⟨0xA, .instr (.ldr (BitVec.ofNat 16 v))⟩ := by
  have hlt : v < 2 ^ 16 := h.trans_le (Nat.pow_le_pow_right (by decide) c.a_le)
  exact decode_encodeInt_of_wf rfl (BitVec.setWidth_ofNat_of_le_of_lt (by decide) hlt)
    (decide_eq_true ((Nat.mod_le _ _).trans_lt h))

/-- Settles O7: an operand within its width is the whole of what its opcode reads, and BSWAP reads nothing. -/
theorem decodeOfEncode : Obligations.DecodeOfEncode :=
  ⟨fun _ _ => decode_encode_of_wf, fun _ _ => decode_encodeInt_ldc, fun c _ => decode_encodeInt_st c,
    fun _ _ => decode_encodeInt_ldr, fun c _ => decode_encodeField c 0x2 _⟩

end Sys2Proof
end

section
/-! PROOFS. The bytes of an encoding (R46, R48), and the two parts of a word (R47, R58). -/

namespace Sys2Proof

/-- The operand of `encode(op, v)` is reduced modulo `2^28` (R48). -/
theorem ofInt28_toNat (v : Int) : (BitVec.ofInt 28 v).toNat = (v % 2 ^ 28).toNat := BitVec.toNat_ofInt v

/-- The four bytes of a layout (R46), as numbers. -/
theorem encodeField_bytes_toNat (op : Opcode) (f : Field) :
    (encodeField op f).b0.toNat = f.toNat % 2 ^ 4 * 2 ^ 4 + op.toNat ∧
    (encodeField op f).b1.toNat = f.toNat / 2 ^ 4 % 2 ^ 8 ∧
    (encodeField op f).b2.toNat = f.toNat / 2 ^ 12 % 2 ^ 8 ∧
    (encodeField op f).b3.toNat = f.toNat / 2 ^ 20 % 2 ^ 8 := by
  refine ⟨?_, ?_, ?_, ?_⟩
  · rw [encodeField, BitVec.toNat_append, ← Nat.shiftLeft_add_eq_or_of_lt op.isLt, Nat.shiftLeft_eq,
      BitVec.extractLsb'_toNat, Nat.shiftRight_zero]
  all_goals simp only [encodeField, BitVec.extractLsb'_toNat, Nat.shiftRight_eq_div_pow]

/-- A zero field leaves the opcode alone in the first byte (R49). -/
theorem encodeField_zero (op : Opcode) : encodeField op 0 = ⟨op.setWidth 8, 0, 0, 0⟩ := by
  revert op
  decide

/-- Settles O1: the bytes of the layout, at the reduced opcode and operand. -/
theorem encodePacksFieldAndOpcode : Obligations.EncodePacksFieldAndOpcode := by
  refine ⟨fun op v => ?_, fun op => ?_⟩
  · have h := encodeField_bytes_toNat (BitVec.ofNat 4 op) (BitVec.ofInt 28 v)
    rwa [ofInt28_toNat, BitVec.toNat_ofNat] at h
  · rw [encodeInt, BitVec.ofNat_toNat, BitVec.setWidth_eq]
    exact encodeField_zero op

theorem InstrGroup.word_toNat_eq_field_opcode (g : InstrGroup) : g.word.toNat = g.field.toNat * 16 + g.opcode.toNat := by
  rw [InstrGroup.field_toNat, InstrGroup.opcode_toNat]
  exact (Nat.div_add_mod' _ _).symm

/-- Settles O2: the sum of the bytes, and the word cut at bit 4. -/
theorem wordIsLittleEndian : Obligations.WordIsLittleEndian :=
  fun g => ⟨rfl, g.word_toNat, g.word_toNat_eq_field_opcode⟩

/-- Encoding what the decoder reads of a group gives the group back (R58): both have one word. -/
theorem encodeField_opcode_field (g : InstrGroup) : encodeField g.opcode g.field = g :=
  InstrGroup.word_injective (BitVec.eq_of_toNat_eq (by
    rw [encodeField_word_toNat, ← g.word_toNat_eq_field_opcode]))

/-- Settles O8: opcode and field are the two parts of the word. -/
theorem codecLosesNoBit : Obligations.CodecLosesNoBit := by
  refine ⟨fun o v ho => ⟨?_, ?_⟩, encodeField_opcode_field⟩
  · rw [encodeInt, encodeField_opcode, BitVec.toNat_ofNat, Nat.mod_eq_of_lt ho]
  · rw [encodeInt, encodeField_field, ofInt28_toNat, Int.toNat_of_nonneg (Int.emod_nonneg _ (by decide))]

/-- The port `enc_word` is the word of the encoder's bytes (R47, R60). -/
theorem encodeField_word (op : Opcode) (f : Field) : (encodeField op f).word = f ++ op :=
  BitVec.eq_of_toNat_eq (by
    rw [encodeField_word_toNat, BitVec.toNat_append, ← Nat.shiftLeft_add_eq_or_of_lt op.isLt, Nat.shiftLeft_eq])

/-- Settles O5: the encoder's four bytes are the group of its opcode and field. -/
theorem encoderPortsCarryTheWord : Obligations.EncoderPortsCarryTheWord := by
  intro c op f
  have hsum := (encodeField op f).word_toNat
  rw [encodeField_word] at hsum
  exact ⟨encodeField_word op f, encodeField_opcode op f, encodeField_field op f, hsum⟩

end Sys2Proof
end

section
/-! PROOFS. What the decoder reads of a group (R50, R51), its ports (R52, R60) and the bits it does not read (R54). -/

namespace Sys2Proof

/-- The decoder's selection, from the number in the low four bits of the word (R50). -/
theorem decode_selected_of_word_mod {g : InstrGroup} {n : Nat} (h : g.word.toNat % 2 ^ 4 = n) (c : Config) :
    (decode c g).selected = select c (BitVec.ofNat 4 n) g.field := by
  rw [decode, ← h, ← InstrGroup.opcode_toNat, BitVec.ofNat_toNat, BitVec.setWidth_eq]

/-- The kind is UNKNOWN exactly for the twelve opcodes of R56. -/
theorem decode_selected_eq_unknown_iff (c : Config) (g : InstrGroup) :
    (decode c g).selected = .unknown ↔ g.opcode.toNat ∉ [0x2, 0x8, 0x9, 0xA] := by
  rw [InstrGroup.opcode_toNat_eq_b0]
  simpa [decode] using select_eq_unknown_iff c g

/-- Settles O3: one case for each opcode of R51, and its operand as a number. -/
theorem decodeReadsLowFieldBits : Obligations.DecodeReadsLowFieldBits := by
  intro c g
  refine ⟨g.opcode_toNat, fun h => ⟨ldcOperand c g.field, ?_, ?_⟩, fun h => ⟨stOperand g.field, ?_, ?_⟩,
    fun h => ⟨ldrOperand c g.field, ?_, ?_⟩, fun h => ?_, fun h => ?_⟩
  · rw [decode_selected_of_word_mod h, select_ldc]
  · rw [ldcOperand_toNat, InstrGroup.field_toNat]
  · rw [decode_selected_of_word_mod h, select_st]
  · rw [stOperand_toNat, InstrGroup.field_toNat]
  · rw [decode_selected_of_word_mod h, select_ldr]
  · rw [ldrOperand_toNat, InstrGroup.field_toNat]
  · rw [decode_selected_of_word_mod h, select_bswap]
  · rwa [decode_selected_eq_unknown_iff, InstrGroup.opcode_toNat]

/-- Only the kind UNKNOWN has the number 0 (R60). -/
theorem Selected.kind_code_eq_zero_iff (sel : Selected) : sel.kind.code = 0 ↔ sel = .unknown := by
  cases sel with
  | unknown => simp [Selected.kind, Kind.code]
  | instr i => cases i <;> simp [Selected.kind, Kind.code]

/-- `dec_kind` shows the number of the kind that was selected (R60). -/
theorem dz4Decode_decKind {c : Config} {g : InstrGroup} {sel : Selected} (h : (decode c g).selected = sel) :
    (dz4Decode c g).decKind = sel.kind.code := by
  rw [dz4Decode, h]

theorem dz4Decode_decKnown_iff (c : Config) (g : InstrGroup) :
    (dz4Decode c g).decKnown = true ↔ (decode c g).selected ≠ .unknown := by
  simp [dz4Decode]

/-- The operand that is selected is the slice of the field that the port of its kind shows (R51, R60). -/
theorem select_operand {c : Config} {op : Opcode} {f : Field} :
    (∀ imm, select c op f = .instr (.ldc imm) → ldcOperand c f = imm) ∧
    (∀ addr, select c op f = .instr (.st addr) → stOperand f = addr) ∧
    (∀ shift, select c op f = .instr (.ldr shift) → ldrOperand c f = shift) := by
  rcases select_cases c op f with ⟨_, hs⟩ | ⟨_, hs⟩ | ⟨_, hs⟩ | ⟨_, hs⟩ | ⟨_, hs⟩ <;> simp [hs]

/-- Settles O4: the ports show the kind that was selected, and the operand read for it. -/
theorem decoderPortsReportDecode : Obligations.DecoderPortsReportDecode := by
  intro c g
  obtain ⟨hldc, hst, hldr⟩ := select_operand (c := c) (op := g.opcode) (f := g.field)
  refine ⟨?_, ?_, fun imm h => ⟨dz4Decode_decKind h, hldc imm h⟩, fun addr h => ⟨dz4Decode_decKind h, hst addr h⟩,
    fun shift h => ⟨dz4Decode_decKind h, hldr shift h⟩, fun h => dz4Decode_decKind h⟩
  · rw [dz4Decode_decKnown_iff, ne_eq, decode_selected_eq_unknown_iff, not_not]
  · rw [← Bool.not_eq_true, dz4Decode_decKnown_iff, ne_eq, not_not, dz4Decode_decKind rfl,
      Selected.kind_code_eq_zero_iff]

/-- Settles O9: nine closed groups. -/
theorem writtenWordsDecode : Obligations.WrittenWordsDecode := by
  unfold Obligations.WrittenWordsDecode
  decide

end Sys2Proof
end

section
/-! PROOFS. The field bits that an opcode does not read (R54). -/

namespace Sys2Proof

/-- Two fields that agree on the bits that their opcode reads are one to the decoder (R51, R54). -/
theorem select_congr_of_read_bits {c : Config} {op : Opcode} {f f' : Field}
    (hldc : op.toNat = 0x8 → f'.toNat % 2 ^ c.ldcWidth.bits = f.toNat % 2 ^ c.ldcWidth.bits)
    (hst : op.toNat = 0x9 → f'.toNat % 2 ^ 15 = f.toNat % 2 ^ 15)
    (hldr : op.toNat = 0xA → f'.toNat % 2 ^ c.a = f.toNat % 2 ^ c.a) : select c op f' = select c op f := by
  rcases select_cases c op f with ⟨rfl, _⟩ | ⟨rfl, _⟩ | ⟨rfl, _⟩ | ⟨rfl, _⟩ | ⟨⟨h8, h9, hA, h2⟩, hs⟩
  · have hread : ldcOperand c f' = ldcOperand c f :=
      BitVec.eq_of_toNat_eq (by rw [ldcOperand_toNat, ldcOperand_toNat, hldc rfl])
    rw [select_ldc, select_ldc, hread]
  · have hread : stOperand f' = stOperand f :=
      BitVec.eq_of_toNat_eq (by rw [stOperand_toNat, stOperand_toNat, hst rfl])
    rw [select_st, select_st, hread]
  · have hread : ldrOperand c f' = ldrOperand c f :=
      BitVec.eq_of_toNat_eq (by rw [ldrOperand_toNat, ldrOperand_toNat, hldr rfl])
    rw [select_ldr, select_ldr, hread]
  · rw [select_bswap, select_bswap]
  · simp [select, h8, h9, hA, h2]

end Sys2Proof

namespace Sys2Proof.Machine

/-- A step in RUN on a group runs what the decoder selects (R70, R71). -/
theorem step_of_currentGroup {s : State} {g : InstrGroup} (hrun : s.status = .run) (hg : s.currentGroup = some g) :
    step s = runSelected (decode s.config g).selected s := by
  have hpc : s.pc ≠ s.numGroups := ((currentGroup_isSome_iff s).1 ⟨g, hg⟩).ne
  rw [step, hrun]
  simp only [runStep, hpc, if_false, fetchDecodeExecute, hg]

/-- `s` with `g'` as the group at `pc`. -/
def State.withCurrentGroup (g' : InstrGroup) (s : State) : State := { s with store := s.store.set s.pc g' }

theorem State.currentGroup_withCurrentGroup {s : State} {g : InstrGroup} (h : s.currentGroup = some g)
    (g' : InstrGroup) : (s.withCurrentGroup g').currentGroup = some g' :=
  List.getElem?_set_self ((currentGroup_isSome_iff s).1 ⟨g, h⟩)

/-- Both answer a next state, and the two agree but for the store and the recorded word (R54). -/
def NextAlikeButWord (o o' : Host.Outcome State Fault Refusal) : Prop :=
  ∃ t t' : State, o = .next t ∧ o' = .next t' ∧
    t'.acc = t.acc ∧ t'.mem = t.mem ∧ t'.pc = t.pc ∧ t'.status = t.status ∧ t'.config = t.config ∧
    (t'.faultRecord.map fun r => (r.cause, r.index)) = (t.faultRecord.map fun r => (r.cause, r.index))

theorem nextAlikeButWord_store (t : State) (store : List InstrGroup) :
    NextAlikeButWord (.next t) (.next { t with store := store }) :=
  ⟨_, _, rfl, rfl, rfl, rfl, rfl, rfl, rfl, rfl⟩

section
variable {s : State} {g : InstrGroup} (hg : s.currentGroup = some g) (g' : InstrGroup)
include hg

/-- A fault reads the group at `pc` for its record's word only (R91). -/
theorem raise_alike_of_group (cause : FaultCause) :
    NextAlikeButWord (raise cause s) (raise cause (s.withCurrentGroup g')) :=
  ⟨_, _, raise_of_currentGroup hg cause, raise_of_currentGroup (State.currentGroup_withCurrentGroup hg g') cause,
    rfl, rfl, rfl, rfl, rfl, rfl⟩

/-- An instruction reads nothing of the store but what a fault records. -/
theorem exec_alike_of_group (i : Instr) : NextAlikeButWord (exec i s) (exec i (s.withCurrentGroup g')) := by
  cases i with
  | ldc imm => exact nextAlikeButWord_store _ _
  | ldr shift => exact nextAlikeButWord_store _ _
  | st addr =>
    have haddr : (s.withCurrentGroup g').stAddress addr = s.stAddress addr := rfl
    simp only [exec, execSt, haddr]
    split
    · exact nextAlikeButWord_store _ _
    · exact raise_alike_of_group hg g' _
  | bswap =>
    have hread : (s.withCurrentGroup g').bswapOperand = s.bswapOperand := rfl
    simp only [exec, execBswap, hread]
    split
    · exact nextAlikeButWord_store _ _
    · exact raise_alike_of_group hg g' _

theorem runSelected_alike_of_group (sel : Selected) :
    NextAlikeButWord (runSelected sel s) (runSelected sel (s.withCurrentGroup g')) := by
  cases sel with
  | instr i => exact exec_alike_of_group hg g' i
  | unknown =>
    have hconfig : (s.withCurrentGroup g').config = s.config := rfl
    simp only [runSelected, runUnknown, hconfig]
    split
    · exact raise_alike_of_group hg g' _
    · exact nextAlikeButWord_store _ _

end

/-- Settles O6: the decoder selects the same for both groups, and running it reads no more of them. -/
theorem unreadFieldBitsNeverMatter : Obligations.UnreadFieldBitsNeverMatter := by
  intro s g g' hrun hg hop hldc hst hldr
  have hsel : (decode s.config g').selected = (decode s.config g).selected := by
    simp only [decode, hop]
    exact select_congr_of_read_bits hldc hst hldr
  have hstep : step s = runSelected (decode s.config g).selected s := step_of_currentGroup hrun hg
  have hstep' : step (s.withCurrentGroup g') = runSelected (decode s.config g).selected (s.withCurrentGroup g') :=
    hsel ▸ step_of_currentGroup hrun (State.currentGroup_withCurrentGroup hg g')
  have halike := runSelected_alike_of_group hg g' (decode s.config g).selected
  rw [← hstep, ← hstep'] at halike
  exact halike

end Sys2Proof.Machine
end

section
/-! PROOFS. The assembler's own parts: the shift of a `mov` (R64) and the names (R66). -/

namespace Sys2Proof.Asm

theorem memWords_cast (c : Config) : (c.memWords : Int) = 2 ^ c.a := by simp [Config.memWords]

theorem movShift_eq_emod (c : Config) (a : Nat) (tracked : Int) : movShift c a tracked = (a - tracked) % 2 ^ c.a := by
  rw [movShift, memWords_cast]

theorem movShift_nonneg (c : Config) (a : Nat) (tracked : Int) : 0 ≤ movShift c a tracked := by
  rw [movShift_eq_emod]
  exact Int.emod_nonneg _ (by positivity)

theorem movShift_lt (c : Config) (a : Nat) (tracked : Int) : movShift c a tracked < 2 ^ c.a := by
  rw [movShift_eq_emod]
  exact Int.emod_lt_of_pos _ (by positivity)

/-- The shift leads from `tracked` to the source, modulo the size of the memory (R64). -/
theorem tracked_add_movShift_emod {c : Config} {a : Nat} (ha : a < 2 ^ c.a) (tracked : Int) :
    (tracked + movShift c a tracked) % 2 ^ c.a = a := by
  rw [movShift_eq_emod, Int.add_emod_emod, add_sub_cancel, Int.emod_eq_of_lt (Int.natCast_nonneg a)]
  exact_mod_cast ha

/-- Settles O46: the shift is a remainder modulo `2^A`, of the distance from `tracked` to the source. -/
theorem movShiftLeadsToSource : Obligations.MovShiftLeadsToSource :=
  fun c a tracked ha => ⟨movShift_nonneg c a tracked, movShift_lt c a tracked, tracked_add_movShift_emod ha tracked⟩

/-! ### Names (R66) -/

/-- A name put behind the others moves none of them, and is found at the end if it is not among them. -/
theorem resolve_append (st : AsmState) (name other : Name) :
    AsmState.resolve other { st with symbols := st.symbols ++ [name] } =
      (st.resolve other).or (if name = other then some st.symbols.length else none) := by
  simp only [AsmState.resolve, List.idxOf?, List.findIdx?_append, List.findIdx?_singleton, beq_iff_eq]
  split <;> simp

/-- Settles O49: the three cases of `resolveOrDeclare`. -/
theorem symbolAllocation : Obligations.SymbolAllocation := by
  intro c name st
  refine ⟨fun a ha => ?_, fun hnew hfree => ?_, fun hnew hfull => ?_⟩
  · simp only [AsmState.resolveOrDeclare, ha]
  · refine ⟨{ st with symbols := st.symbols ++ [name] }, ?_, ?_, fun other a ha => ?_⟩
    · simp only [AsmState.resolveOrDeclare, hnew]
      exact if_pos hfree
    · rw [resolve_append, hnew, Option.none_or, if_pos rfl]
    · rw [resolve_append, ha, Option.some_or]
  · simp only [AsmState.resolveOrDeclare, hnew]
    exact if_neg (Nat.not_lt.2 hfull)

end Sys2Proof.Asm
end

section
/-! PROOFS. The groups of `mov` and `set` run on the machine (R63, R64). -/

namespace Sys2Proof

theorem LdcWidth.bits_le (w : LdcWidth) : w.bits ≤ 28 := by cases w <;> decide

/-- The operand of `encode(0x8, k)`, for any integer `k`: the low bits of its residue modulo `2^28` (R48, R51). -/
theorem ldcOperand_ofInt_toNat (c : Config) (k : Int) :
    ((ldcOperand c (BitVec.ofInt 28 k)).toNat : Int) = k % 2 ^ c.ldcWidth.bits := by
  have hdvd : (2 : Int) ^ c.ldcWidth.bits ∣ 2 ^ 28 := pow_dvd_pow 2 c.ldcWidth.bits_le
  rw [ldcOperand_toNat, ofInt28_toNat, Int.natCast_emod, Int.toNat_of_nonneg (Int.emod_nonneg _ (by decide))]
  push_cast
  exact Int.emod_emod_of_dvd k hdvd

end Sys2Proof

namespace Sys2Proof.Machine

open Asm

/-- LDR's address as an integer remainder (R82). -/
theorem ldrAddress_cast (shift : BitVec 16) (s : State) :
    (s.ldrAddress shift : Int) = (s.acc.toNat + shift.toNat) % 2 ^ s.config.a := by
  simp [State.ldrAddress, Config.memWords]

/-- The LDR of a `mov` reads its source exactly where `acc` agrees with `tracked`: both are as far from it (R64). -/
theorem ldrAddress_eq_source_iff {s : State} {a : Nat} {tracked : Int} {shift : BitVec 16} (ha : a < 2 ^ s.config.a)
    (hshift : (shift.toNat : Int) = movShift s.config a tracked) :
    s.ldrAddress shift = a ↔ (s.acc.toNat : Int) % 2 ^ s.config.a = tracked % 2 ^ s.config.a := by
  rw [← Int.natCast_inj, ldrAddress_cast, hshift]
  conv_lhs => rhs; rw [← tracked_add_movShift_emod ha tracked]
  exact Int.emod_add_cancel_right _

/-- Settles O47: the shift fits the operand of LDR, so the group decodes to it. -/
theorem movReadsSourceIffTracked : Obligations.MovReadsSourceIffTracked := by
  intro s a tracked ha
  obtain ⟨v, hv⟩ := Int.eq_ofNat_of_zero_le (movShift_nonneg s.config a tracked)
  have hlt : v < 2 ^ s.config.a := by
    have h := movShift_lt s.config a tracked
    rw [hv] at h
    exact_mod_cast h
  have hshift : (BitVec.ofNat 16 v).toNat = v :=
    Nat.mod_eq_of_lt (hlt.trans_le (Nat.pow_le_pow_right (by decide) s.config.a_le))
  refine ⟨BitVec.ofNat 16 v, ?_, ldrAddress_eq_source_iff ha (by rw [hshift, hv])⟩
  rw [hv]
  exact decode_encodeInt_ldr hlt

/-- A step on `encode(0x8, k)` loads the operand (R63, R80). -/
theorem step_encodeInt_ldc {s : State} {k : Int} (hrun : s.status = .run)
    (hg : s.currentGroup = some (encodeInt 0x8 k)) :
    step s = .next (s.setAcc ((ldcOperand s.config (BitVec.ofInt 28 k)).setWidth 32)).advance := by
  rw [step_of_currentGroup hrun hg, encodeInt, decode_encodeField, select_ldc]
  rfl

/-- A step on `encode(0x9, a)` stores `acc` at `a`, where `a` is an address that ST reaches (R63, R81). -/
theorem step_encodeInt_st {s : State} {a : Nat} (hrun : s.status = .run)
    (hg : s.currentGroup = some (encodeInt 0x9 a)) (ha : a < 2 ^ 15) (hmem : a < s.config.memWords) :
    step s = .next (s.memWrite a s.acc).advance := by
  have haddr : s.stAddress (BitVec.ofNat 15 a) = some a := by
    rw [State.stAddress, BitVec.toNat_ofNat, Nat.mod_eq_of_lt ha]
    exact boundedAddress_inRange hmem
  rw [step_of_currentGroup hrun hg, decode_encodeInt_st _ ha]
  simp only [runSelected, exec, execSt, haddr]

/-- Settles O48: the first step loads the literal, and the second stores it. -/
theorem setLeavesLiteralInMemory : Obligations.SetLeavesLiteralInMemory := by
  intro s k a hrun hwf ha hmem hldc hst
  refine ⟨_, _, step_encodeInt_ldc hrun hldc, step_encodeInt_st hrun hst ha hmem, ?_, ?_, rfl⟩
  · simp only [State.advance_acc, State.memWrite_acc, State.setAcc_acc]
    rw [BitVec.toNat_setWidth_of_le (by decide), ldcOperand_ofInt_toNat]
  · exact (Memory.read_write hwf.1 a _ a).trans (if_pos rfl)

end Sys2Proof.Machine
end

section
/-! PROOFS. One step of the cycle: what it runs and how it moves `pc` (R70 to R75). -/

namespace Sys2Proof.Machine

/-- Below `N` a step in RUN is a fetch and its execution (R70). -/
theorem step_eq_fetchDecodeExecute {s : State} (hrun : s.status = .run) (hpc : s.pc ≠ s.numGroups) :
    step s = fetchDecodeExecute s := by
  rw [step, hrun]
  exact if_neg hpc

/-- Settles O31, one case for each status, and in RUN one for the end of the program. -/
theorem stepExistsOnlyInRun : Obligations.StepExistsOnlyInRun := by
  intro s
  refine ⟨fun hdone => ?_, fun hfault => ?_, step_eq_finish,
    fun hrun hlt => step_eq_fetchDecodeExecute hrun hlt.ne⟩
  · rw [step, hdone]
  · rw [step, hfault]

/-- Settles O32: the step runs what is selected, and only well-formed instructions are. -/
theorem stepRunsDecodedInstruction : Obligations.StepRunsDecodedInstruction := by
  intro s g i hrun hg hsel
  refine ⟨?_, select_wf hsel⟩
  rw [step_of_currentGroup hrun hg, hsel, runSelected]

theorem runUnknown_of_fault {s : State} (h : s.config.unknownOpcodePolicy = .fault) :
    runUnknown s = raise .unknownOpcode s := by
  simp [runUnknown, h]

theorem runUnknown_of_skip {s : State} (h : s.config.unknownOpcodePolicy = .skip) :
    runUnknown s = .next s.advance := by
  simp [runUnknown, h]

/-- Settles O33: outside the four opcodes the kind is UNKNOWN, and the policy says what it does. -/
theorem unknownOpcodePolicyDecides : Obligations.UnknownOpcodePolicyDecides := by
  intro s g hrun hg hop
  have hsel : (decode s.config g).selected = .unknown := by
    rwa [decode_selected_eq_unknown_iff, InstrGroup.opcode_toNat]
  have hstep : step s = runUnknown s := by rw [step_of_currentGroup hrun hg, hsel, runSelected]
  refine ⟨fun hfault => ?_, fun hskip => hstep.trans (runUnknown_of_skip hskip)⟩
  rw [hstep, runUnknown_of_fault hfault]
  exact raise_of_currentGroup hg .unknownOpcode

/-- In RUN every group steps (R75). That running it answers a next state is one half of R54's lemma, taken here with
the group put in its own place. -/
theorem exists_step_next_of_currentGroup {s : State} {g : InstrGroup} (hrun : s.status = .run)
    (hg : s.currentGroup = some g) : ∃ t, step s = .next t := by
  obtain ⟨t, _, ht, _⟩ := runSelected_alike_of_group hg g (decode s.config g).selected
  exact ⟨t, (step_of_currentGroup hrun hg).trans ht⟩

/-- An instruction in RUN completes, and then advances `pc` (R73), or faults, and then does not move it (R92). -/
theorem exec_advances_or_faults {i : Instr} {s t : State} (hrun : s.status = .run) (h : exec i s = .next t) :
    (t.status = .run ∧ t.pc = s.pc + 1) ∨ (t.status = .fault ∧ t.pc = s.pc) := by
  cases exec_next h with
  | load _ _ => exact .inl ⟨hrun, rfl⟩
  | store _ _ _ _ => exact .inl ⟨hrun, rfl⟩
  | fault _ _ _ => exact .inr ⟨rfl, rfl⟩

/-- Settles O34: a group steps, and of what a step can do only the end of the run is left out below `N`. -/
theorem pcAdvancesByOneOrFaults : Obligations.PcAdvancesByOneOrFaults := by
  intro s hrun hlt
  obtain ⟨g, hg⟩ := (currentGroup_isSome_iff s).2 hlt
  obtain ⟨t, ht⟩ := exists_step_next_of_currentGroup hrun hg
  refine ⟨t, ht, ?_⟩
  obtain ⟨_, hresult⟩ := step_next ht
  cases hresult with
  | finish hpc => exact absurd hpc hlt.ne
  | instr _ _ _ _ _ _ hexec => exact exec_advances_or_faults hrun hexec
  | skip _ _ _ _ _ => exact .inl ⟨hrun, rfl⟩
  | unknown _ _ _ _ _ => exact .inr ⟨rfl, rfl⟩

end Sys2Proof.Machine
end

section
/-! PROOFS. The run: its steps one by one, and its end within a step for each group and one more (R75, R76). -/

namespace Sys2Proof.Machine

theorem runFor_succ_of_next {s t : State} (h : step s = .next t) (k : Nat) : runFor (k + 1) s = runFor k t := by
  simp only [runFor, h]

/-- Outside RUN no step exists, so a run stays where it is (R70). -/
theorem runFor_of_status_ne_run {s : State} (h : s.status ≠ .run) (k : Nat) : runFor k s = s := by
  cases k with
  | zero => rfl
  | succ k =>
    rw [runFor]
    split
    next t ht => exact absurd (step_next ht).1 h
    next => rfl
    next => rfl

/-- Every state that a run reaches keeps what each step keeps: the invariant. -/
theorem State.Inv.runFor {s : State} (h : s.Inv) (k : Nat) : (runFor k s).Inv := by
  induction k generalizing s with
  | zero => exact h
  | succ k ih =>
    rw [Machine.runFor]
    split
    next t ht => exact ih (stepKeepsInvariant s t h ht)
    next => exact h
    next => exact h

/-- The run from `s` is in RUN for its first `k` steps, and the step after them leads to `u`. -/
structure State.RunsUntil (s : State) (k : Nat) (u : State) : Prop where
  runFor_eq : runFor (k + 1) s = u
  status_run : ∀ j ≤ k, (runFor j s).status = .run

theorem State.RunsUntil.of_step {s u : State} (hrun : s.status = .run) (h : step s = .next u) : s.RunsUntil 0 u where
  runFor_eq := runFor_succ_of_next h 0
  status_run j hj := by
    obtain rfl : j = 0 := Nat.le_zero.1 hj
    exact hrun

theorem State.RunsUntil.cons {s t u : State} {k : Nat} (hrun : s.status = .run) (h : step s = .next t)
    (ht : t.RunsUntil k u) : s.RunsUntil (k + 1) u where
  runFor_eq := (runFor_succ_of_next h _).trans ht.runFor_eq
  status_run j hj := by
    cases j with
    | zero => exact hrun
    | succ j =>
      rw [runFor_succ_of_next h]
      exact ht.status_run j (Nat.le_of_succ_le_succ hj)

/-- Once a run has ended, more steps change nothing (R76). -/
theorem runFor_of_le {k m : Nat} {s : State} (hended : (runFor k s).status ≠ .run) (hle : k ≤ m) :
    runFor m s = runFor k s := by
  induction k generalizing s m with
  | zero => exact runFor_of_status_ne_run hended m
  | succ k ih =>
    obtain ⟨m, rfl⟩ := Nat.exists_eq_add_of_le' (Nat.one_le_of_lt hle)
    rw [runFor] at hended ⊢
    rw [runFor]
    split
    next t ht =>
      rw [ht] at hended
      exact ih hended (Nat.le_of_succ_le_succ hle)
    next => rfl
    next => rfl

/-- With `n` groups left, a run in RUN takes `n` steps to the DONE step, or fewer to a fault at the group that it has
come to (R73, R75). By induction on the groups that are left. -/
theorem runsUntil_done_or_fault {n : Nat} {s : State} (hrun : s.status = .run) (hn : s.pc + n = s.numGroups) :
    (∃ u, s.RunsUntil n u ∧ u.status = .done) ∨
    ∃ k u, k < n ∧ s.RunsUntil k u ∧ u.status = .fault ∧ u.pc = s.pc + k := by
  induction n generalizing s with
  | zero => exact .inl ⟨s.finish, .of_step hrun (step_eq_finish hrun hn), rfl⟩
  | succ n ih =>
    obtain ⟨t, ht, ⟨htrun, htpc⟩ | ⟨hfault, htpc⟩⟩ := pcAdvancesByOneOrFaults s hrun (by omega)
    · have hstore : t.numGroups = s.numGroups := congrArg List.length (noStepChangesTheStore s t ht).1
      obtain ⟨u, hu, hdone⟩ | ⟨k, u, hk, hu, hfault, hpc⟩ := ih htrun (by omega)
      · exact .inl ⟨u, hu.cons hrun ht, hdone⟩
      · exact .inr ⟨k + 1, u, Nat.succ_lt_succ hk, hu.cons hrun ht, hfault, by omega⟩
    · exact .inr ⟨0, t, n.succ_pos, .of_step hrun ht, hfault, htpc⟩

/-- The end of a run, with the number of steps it takes to it (R75). -/
theorem runToEnd_done_or_fault {s : State} (hrun : s.status = .run) (hle : s.pc ≤ s.numGroups) :
    (s.RunsUntil (s.numGroups - s.pc) s.runToEnd ∧ s.runToEnd.status = .done) ∨
    ∃ k, k < s.numGroups - s.pc ∧ s.RunsUntil k s.runToEnd ∧ s.runToEnd.status = .fault ∧
      s.runToEnd.pc = s.pc + k := by
  obtain ⟨u, hu, hdone⟩ | ⟨k, u, hk, hu, hfault, hpc⟩ :=
    runsUntil_done_or_fault hrun (Nat.add_sub_of_le hle)
  · obtain rfl : s.runToEnd = u := hu.runFor_eq
    exact .inl ⟨hu, hdone⟩
  · have hended : (runFor (k + 1) s).status ≠ .run := by simp [hu.runFor_eq, hfault]
    obtain rfl : s.runToEnd = u := (runFor_of_le hended (by omega)).trans hu.runFor_eq
    exact .inr ⟨k, hk, hu, hfault, hpc⟩

/-- Every run from a load ends (R75). -/
theorem runToEnd_status_of_boot {c : Config} {stream : List Byte} {s : State} (h : boot c stream = .next s) :
    s.runToEnd.status = .done ∨ s.runToEnd.status = .fault := by
  obtain ⟨_, rfl⟩ := boot_next h
  obtain ⟨_, hdone⟩ | ⟨_, _, _, hfault, _⟩ := runToEnd_done_or_fault (State.initial_status _ _) (Nat.zero_le _)
  · exact .inl hdone
  · exact .inr hfault

/-- Settles O35: the end of the run and the steps to it; from a load these are at most `N + 1`, since `pc = 0`. -/
theorem runEndsWithinOneStepPerGroup : Obligations.RunEndsWithinOneStepPerGroup := by
  refine ⟨fun s hrun hle => ?_, fun c stream s hboot => ?_⟩
  · obtain ⟨hu, hdone⟩ | ⟨k, hk, hu, hfault, hpc⟩ := runToEnd_done_or_fault hrun hle
    · exact .inl ⟨hdone, hu.status_run⟩
    · refine .inr ⟨hfault, s.pc + k, by omega, by omega, ?_⟩
      rw [Nat.add_sub_cancel_left, hu.runFor_eq]
      exact ⟨hfault, hpc, hu.status_run⟩
  · have hend := runToEnd_status_of_boot hboot
    obtain ⟨_, rfl⟩ := boot_next hboot
    exact hend

end Sys2Proof.Machine
end

section
/-! PROOFS. The output of a run (R77) and the core's ports (R79). -/

namespace Sys2Proof.Machine

theorem State.observe_of_run {s : State} (h : s.status = .run) : s.observe = none := by
  simp [State.observe, h]

theorem State.observe_of_done {s : State} (h : s.status = .done) :
    s.observe = some (.done s.acc.toNat ((List.range s.config.memWords).map fun a => (s.memRead a).toNat)) := by
  simp [State.observe, h]

theorem State.observe_of_fault {s : State} (h : s.status = .fault) : s.observe = s.faultRecord.map .fault := by
  simp [State.observe, h]

/-- Settles O41, one case for each status. -/
theorem runOutput : Obligations.RunOutput := by
  refine ⟨fun s hdone => ⟨_, State.observe_of_done hdone, ?_, fun a ha => ?_⟩,
    fun s r acc mem hfault hrecord => ⟨?_, ?_⟩, fun s => State.observe_of_run⟩
  · simp [Config.memWords]
  · have ha' : a < s.config.memWords := ha
    simp [ha']
  · rw [State.observe_of_fault hfault, hrecord, Option.map_some]
  · rw [State.observe_of_fault hfault]
    exact State.observe_of_fault hfault

/-- In FAULT the record is that of the group at `pc`, and its cause is due there (R26, R91). -/
theorem State.Inv.fault_record {s : State} (h : s.Inv) (hfault : s.status = .fault) :
    ∃ g cause, s.store[s.pc]? = some g ∧ s.faultRecord = some ⟨cause, s.pc, g.word⟩ ∧ s.FaultDue g cause := by
  simpa [State.StatusConsistent, hfault] using h.statusConsistent

/-- Settles O42: the ports in RUN and DONE are read from the state, and those in FAULT from its record. -/
theorem corePortsShowTheStatus : Obligations.CorePortsShowTheStatus := by
  intro s hinv
  refine ⟨fun hrun => ⟨?_, fun hlt => if_pos ⟨hrun, hlt⟩⟩,
    fun hdone => ⟨?_, if_pos hdone, fun a ha => if_pos ⟨hdone, ha⟩⟩, fun hfault => ⟨?_, ?_⟩⟩
  · rw [State.ports, hrun, Status.code]
  · rw [State.ports, hdone, Status.code]
  · rw [State.ports, hfault, Status.code]
  · obtain ⟨g, cause, hg, hrecord, hdue⟩ := hinv.fault_record hfault
    refine ⟨g, cause, hg, hdue, ?_⟩
    simp [State.ports, hrecord]

/-- A DONE output is the output of DONE only (R77). -/
theorem State.observe_eq_done_iff (s : State) : (∃ acc mem, s.observe = some (.done acc mem)) ↔ s.status = .done := by
  cases h : s.status with
  | run => simp [State.observe_of_run h]
  | done => simp [State.observe_of_done h]
  | fault => simp [State.observe_of_fault h]

/-- A run that has ended has an output: in FAULT the invariant gives the record (R77, R91). -/
theorem State.Inv.observe_isSome {s : State} (h : s.Inv) (hended : s.status = .done ∨ s.status = .fault) :
    s.observe.isSome = true := by
  obtain hdone | hfault := hended
  · simp [State.observe_of_done hdone]
  · obtain ⟨g, cause, _, hrecord, _⟩ := h.fault_record hfault
    simp [State.observe_of_fault hfault, hrecord]

theorem execute_of_boot {c : Config} {stream : List Byte} {s : State} (h : boot c stream = .next s) :
    execute c stream = s.runToEnd.observe := by
  rw [execute, h]

/-- Settles O44: the run from the load ends, and its end meets the invariant. -/
theorem executeObservesTheEnd : Obligations.ExecuteObservesTheEnd := by
  intro c stream hfits
  have hboot := boot_eq_next hfits
  have hexec := execute_of_boot hboot
  have hinv := (invariantHoldsAfterReset.1 c stream _ hboot).runFor
  refine ⟨_, hboot, hexec, ?_, ?_⟩ <;> rw [hexec]
  · exact (hinv _).observe_isSome (runToEnd_status_of_boot hboot)
  · exact (State.observe_eq_done_iff _).symm

end Sys2Proof.Machine
end

section
/-! PROOFS. What LDC, ST and LDR do and leave unchanged (R80 to R84), and the frame of BSWAP (R89). -/

namespace Sys2Proof.Machine

/-! ### The instructions, an equation for each case -/

theorem exec_ldc (imm : BitVec 28) (s : State) :
    exec (.ldc imm) s = .next (s.setAcc (imm.setWidth 32)).advance := rfl

theorem exec_ldr (shift : BitVec 16) (s : State) :
    exec (.ldr shift) s = .next (s.setAcc (s.memRead (s.ldrAddress shift))).advance := rfl

theorem exec_st_of_address {addr : BitVec 15} {s : State} {a : Nat} (h : s.stAddress addr = some a) :
    exec (.st addr) s = .next (s.memWrite a s.acc).advance := by
  simp [exec, execSt, h]

theorem exec_bswap_of_operand {s : State} {x : Word} (h : s.bswapOperand = some x) :
    exec .bswap s = .next (s.setAcc (bswap32 x)).advance := by
  simp [exec, execBswap, h]

theorem exec_bswap_of_no_operand {s : State} (h : s.bswapOperand = none) :
    exec .bswap s = raise .addressOutOfRange s := by
  simp [exec, execBswap, h]

/-- A data word after a store, in canonical memory (R16, R33). -/
theorem State.memRead_memWrite {s : State} (hm : Memory.wf s.config.memWords s.mem) (a : Nat) (v : Word) (b : Nat) :
    (s.memWrite a v).memRead b = if b = a then v else s.memRead b :=
  Memory.read_write hm.1 a v b

/-- ST has an address where its operand is in range and under WRAP, and it is the remainder (R34, R81). -/
theorem stAddress_eq_some_mod {addr : BitVec 15} {s : State}
    (h : addr.toNat < s.config.memWords ∨ s.config.addrOobPolicy = .wrap) :
    s.stAddress addr = some (addr.toNat % s.config.memWords) := by
  obtain hlt | hwrap := h
  · rw [State.stAddress, boundedAddress_inRange hlt, Nat.mod_eq_of_lt hlt]
  · exact boundedAddress_of_wrap hwrap _

/-! ### The instructions by hand -/

/-- Settles O17: widening the operand to a word keeps its number. -/
theorem ldcLoadsImmediate : Obligations.LdcLoadsImmediate := by
  intro imm s
  refine ⟨_, exec_ldc imm s, ?_, rfl, rfl, rfl, rfl, rfl, fun _ => rfl⟩
  exact BitVec.toNat_setWidth_of_le (by decide)

/-- Settles O22: the address is formed from the old `acc`, and only `acc` and `pc` are written. -/
theorem ldrLoadsRelativeWord : Obligations.LdrLoadsRelativeWord :=
  fun shift s => ⟨_, exec_ldr shift s, rfl, rfl, rfl, rfl, rfl, rfl, fun _ => rfl⟩

/-- Settles O19: there is an address, and a store writes the word at it alone. -/
theorem stStoresAccumulator : Obligations.StStoresAccumulator := by
  intro addr s hm hreach
  have haddr := stAddress_eq_some_mod hreach
  have hread := State.memRead_memWrite hm (addr.toNat % s.config.memWords) s.acc
  exact ⟨_, _, haddr, rfl, exec_st_of_address haddr, (hread _).trans (if_pos rfl),
    fun b hb => (hread b).trans (if_neg hb), rfl, rfl, rfl, rfl, rfl, rfl⟩

/-- Settles O24: the signed value is the unsigned one, or `2^A` less, which the remainder does not see. -/
theorem ldrShiftSignedOrUnsigned : Obligations.LdrShiftSignedOrUnsigned := by
  intro shift s _
  rw [ldrAddress_cast]
  split
  · rfl
  · rw [← add_sub_assoc, Int.sub_emod_right]

/-- Settles O25: ST leaves `acc`, so LDR forms the address that ST wrote. -/
theorem ldrAfterStReadsStoredValue : Obligations.LdrAfterStReadsStoredValue := by
  intro addr shift s a hm hst hldr
  have hread : (s.memWrite a s.acc).memRead (s.ldrAddress shift) = s.acc := by
    rw [hldr, State.memRead_memWrite hm, if_pos rfl]
  exact ⟨_, _, exec_st_of_address hst, exec_ldr shift _, hread, rfl⟩

/-! ### Frames (R84, R89) -/

/-- Settles O30: a case for each instruction, and for ST and BSWAP one with an address and one without. -/
theorem instructionFrames : Obligations.InstructionFrames := by
  intro s t
  refine ⟨fun imm h => ?_, fun shift h => ?_, fun addr h => ?_, fun h => ?_⟩
  · rw [exec_ldc] at h
    cases h
    exact ⟨rfl, rfl, rfl, rfl, rfl⟩
  · rw [exec_ldr] at h
    cases h
    exact ⟨rfl, rfl, rfl, rfl, rfl⟩
  · cases haddr : s.stAddress addr with
    | some a =>
      rw [exec_st_of_address haddr] at h
      cases h
      refine ⟨rfl, rfl, rfl, fun a' ha' => ⟨rfl, rfl, fun b hb => ?_⟩, nofun⟩
      obtain rfl : a = a' := Option.some.inj ha'
      exact Memory.read_write_ne hb s.acc s.mem
    | none =>
      rw [exec_st_of_no_address haddr] at h
      obtain ⟨g, _, rfl⟩ := raise_next h
      exact ⟨rfl, rfl, rfl, nofun, fun _ => ⟨rfl, rfl, rfl⟩⟩
  · cases hx : s.bswapOperand with
    | some x =>
      rw [exec_bswap_of_operand hx] at h
      cases h
      exact ⟨rfl, rfl, rfl, fun _ => ⟨rfl, rfl⟩, nofun⟩
    | none =>
      rw [exec_bswap_of_no_operand hx] at h
      obtain ⟨g, _, rfl⟩ := raise_next h
      exact ⟨rfl, rfl, rfl, nofun, fun _ => ⟨rfl, rfl, rfl⟩⟩

end Sys2Proof.Machine
end

section
/-! PROOFS. A step on a group of LDC, ST or LDR, from the bits of its word (R80, R81, R82). -/

namespace Sys2Proof.Machine

/-- Settles O18: the group decodes to an LDC of the low bits of its field. -/
theorem stepOnLdcGroup : Obligations.StepOnLdcGroup := by
  intro s g hrun hg hop
  obtain ⟨_, hldc, _⟩ := decodeReadsLowFieldBits s.config g
  obtain ⟨imm, hsel, himm⟩ := hldc hop
  rw [(stepRunsDecodedInstruction s g _ hrun hg hsel).1, exec_ldc, ← himm, BitVec.ofNat_toNat]
  rfl

/-- Settles O21: the group decodes to an ST of `word[18:4]`, and ST has the three cases of its address. -/
theorem stepOnStGroup : Obligations.StepOnStGroup := by
  intro s g hrun hg hop
  obtain ⟨_, _, hst, _⟩ := decodeReadsLowFieldBits s.config g
  obtain ⟨addr, hsel, haddr⟩ := hst hop
  rw [(stepRunsDecodedInstruction s g _ hrun hg hsel).1, ← haddr]
  refine ⟨fun hlt => ?_, fun _ hwrap => ?_, fun hout hfault => ?_⟩
  · exact exec_st_of_address (boundedAddress_inRange hlt)
  · exact exec_st_of_address (boundedAddress_of_wrap hwrap _)
  · have hnone : s.stAddress addr = none := (boundedAddress_eq_none_iff _ _).2 ⟨hfault, hout⟩
    rw [exec_st_of_no_address hnone]
    exact raise_of_currentGroup hg .addressOutOfRange

/-- Settles O23: the group decodes to an LDR of the low `A` bits of its field. -/
theorem stepOnLdrGroup : Obligations.StepOnLdrGroup := by
  intro s g hrun hg hop
  obtain ⟨_, _, _, hldr, _⟩ := decodeReadsLowFieldBits s.config g
  obtain ⟨shift, hsel, hshift⟩ := hldr hop
  rw [(stepRunsDecodedInstruction s g _ hrun hg hsel).1, exec_ldr, ← hshift]
  rfl

end Sys2Proof.Machine
end

section
/-! PROOFS. The byte reversal (R85, R88) and BSWAP (R86, R87, R89). -/

namespace Sys2Proof.Machine

/-! ### The bytes of a word (R17) -/

theorem wordByte_toNat (k : Nat) (v : Word) : (wordByte k v).toNat = v.toNat / 2 ^ (8 * k) % 2 ^ 8 := by
  rw [wordByte, BitVec.extractLsb'_toNat, Nat.shiftRight_eq_div_pow]

/-- Bit `i` of a word is bit `i mod 8` of byte `i / 8` (R17). -/
theorem getLsbD_wordByte (v : Word) (i : Nat) : (wordByte (i / 8) v).getLsbD (i % 8) = v.getLsbD i := by
  rw [wordByte, BitVec.getLsbD_extractLsb', Nat.div_add_mod, decide_eq_true (Nat.mod_lt i (by decide)), Bool.true_and]

/-- A word is its four bytes. -/
theorem word_eq_of_wordByte {v w : Word} (h : ∀ k < 4, wordByte k v = wordByte k w) : v = w := by
  refine BitVec.eq_of_getLsbD_eq fun i hi => ?_
  rw [← getLsbD_wordByte v, h (i / 8) (Nat.div_lt_of_lt_mul hi), getLsbD_wordByte]

/-- The reversal as a concatenation of eight-bit slices cut at fixed bits (R85). -/
theorem bswap32_eq_append (v : Word) :
    bswap32 v = v.extractLsb' 0 8 ++ v.extractLsb' 8 8 ++ v.extractLsb' 16 8 ++ v.extractLsb' 24 8 := rfl

/-- Byte `k` of the reversal is found by leaving out the `k` lowest bytes of the concatenation (R85). -/
theorem wordByte_bswap32 {k : Nat} (hk : k < 4) (v : Word) : wordByte k (bswap32 v) = wordByte (3 - k) v := by
  match k with
  | 0 => exact BitVec.extractLsb'_append_eq_right
  | 1 => exact (BitVec.extractLsb'_append_eq_of_le (by decide)).trans BitVec.extractLsb'_append_eq_right
  | 2 =>
    exact (BitVec.extractLsb'_append_eq_of_le (by decide)).trans
      ((BitVec.extractLsb'_append_eq_of_le (by decide)).trans BitVec.extractLsb'_append_eq_right)
  | 3 =>
    exact (BitVec.extractLsb'_append_eq_of_le (by decide)).trans
      ((BitVec.extractLsb'_append_eq_of_le (by decide)).trans BitVec.extractLsb'_append_eq_left)

/-- Settles O26: the slices of the concatenation are the bytes, each in its mirrored place. -/
theorem bswapReversesBytes : Obligations.BswapReversesBytes :=
  fun v => ⟨bswap32_eq_append v, fun k hk => ⟨wordByte_toNat k v, wordByte_bswap32 hk v⟩⟩

/-- Mirrored twice, each byte is back in its own place (R88). -/
theorem bswap32_bswap32 (v : Word) : bswap32 (bswap32 v) = v := by
  refine word_eq_of_wordByte fun k hk => ?_
  have hmirror : 3 - k < 4 := by omega
  rw [wordByte_bswap32 hk, wordByte_bswap32 hmirror, Nat.sub_sub_self (Nat.le_of_lt_succ hk)]

/-! ### The operand (R86, R87) -/

theorem bswapOperand_of_acc {s : State} (h : s.config.bswapSource = .acc) : s.bswapOperand = some s.acc := by
  simp only [State.bswapOperand, h]

theorem bswapOperand_of_address {s : State} {a : Nat} (h : s.config.bswapSource = .memAtAcc)
    (ha : s.bswapAddress = some a) : s.bswapOperand = some (s.memRead a) := by
  simp only [State.bswapOperand, h, ha, Option.map_some]

theorem exec_bswap_of_acc {s : State} (h : s.config.bswapSource = .acc) :
    exec .bswap s = .next (s.setAcc (bswap32 s.acc)).advance :=
  exec_bswap_of_operand (bswapOperand_of_acc h)

theorem exec_bswap_of_address {s : State} {a : Nat} (h : s.config.bswapSource = .memAtAcc)
    (ha : s.bswapAddress = some a) : exec .bswap s = .next (s.setAcc (bswap32 (s.memRead a))).advance :=
  exec_bswap_of_operand (bswapOperand_of_address h ha)

/-- Under MEM_AT_ACC and WRAP every `acc` has an address to read (R12, R87). -/
theorem exec_bswap_of_wrap {s : State} (h : s.config.bswapSource = .memAtAcc) (hwrap : s.config.addrOobPolicy = .wrap) :
    exec .bswap s = .next (s.setAcc (bswap32 (s.memRead (s.acc.toNat % 2 ^ s.config.a)))).advance :=
  exec_bswap_of_address h (boundedAddress_of_wrap hwrap _)

/-! ### The instruction, alone and on a group -/

/-- Settles O28: the group decodes to BSWAP, and BSWAP has a case for ACC and the three cases of its address. -/
theorem stepOnBswapGroup : Obligations.StepOnBswapGroup := by
  intro s g hrun hg hop
  obtain ⟨_, _, _, _, hbswap, _⟩ := decodeReadsLowFieldBits s.config g
  rw [(stepRunsDecodedInstruction s g _ hrun hg (hbswap hop)).1]
  refine ⟨exec_bswap_of_acc, fun hsrc hlt => ?_, fun hsrc _ hwrap => exec_bswap_of_wrap hsrc hwrap,
    fun hsrc hout hfault => ?_⟩
  · exact exec_bswap_of_address hsrc (boundedAddress_inRange hlt)
  · rw [exec_bswap_of_no_operand ((bswapOperand_eq_none_iff s).2 ⟨hsrc, hfault, hout⟩)]
    exact raise_of_currentGroup hg .addressOutOfRange

/-- Settles O29: the parameters stay, so the second BSWAP is that of the first one's source. In the empty memory both
load 0, and an `acc` of 1 is lost. -/
theorem bswapTwice : Obligations.BswapTwice := by
  refine ⟨bswap32_bswap32, fun s hsrc => ?_, fun s hsrc hwrap => ?_, ?_⟩
  · exact ⟨_, _, exec_bswap_of_acc hsrc, exec_bswap_of_acc hsrc, bswap32_bswap32 s.acc⟩
  · exact ⟨_, _, exec_bswap_of_wrap hsrc hwrap, exec_bswap_of_wrap hsrc hwrap, rfl⟩
  · exact ⟨(State.initial .p11 []).setAcc 1, _, _, rfl, exec_bswap_of_wrap rfl rfl, exec_bswap_of_wrap rfl rfl,
      by decide⟩

/-- Settles O27: the cases of the operand, the last of which the premise leaves out; an address is the remainder. -/
theorem bswapLoadsSwappedOperand : Obligations.BswapLoadsSwappedOperand := by
  intro s hreadable
  obtain ⟨hsrc, hx⟩ | ⟨hsrc, a, ha, hx⟩ | ⟨_, _, hx⟩ := bswapOperand_cases s
  · have hne : s.config.bswapSource ≠ .memAtAcc := by simp [hsrc]
    exact ⟨_, exec_bswap_of_operand hx, fun _ => rfl, fun h => absurd h hne, rfl, rfl, rfl, rfl, rfl, fun _ => rfl⟩
  · have hne : s.config.bswapSource ≠ .acc := by simp [hsrc]
    obtain rfl := boundedAddress_eq_mod ha
    exact ⟨_, exec_bswap_of_operand hx, fun h => absurd h hne, fun _ => rfl, rfl, rfl, rfl, rfl, rfl, fun _ => rfl⟩
  · obtain ⟨hsrc, hfault, hout⟩ := (bswapOperand_eq_none_iff s).1 hx
    obtain hacc | hlt | hwrap := hreadable
    · cases hsrc.symm.trans hacc
    · exact absurd hlt (Nat.not_lt.2 hout)
    · cases hfault.symm.trans hwrap

end Sys2Proof.Machine
end

section
/-! PROOFS. The entry into FAULT: when a step takes it (R90), and what it leaves as it was (R91 to R93). -/

namespace Sys2Proof

/-- The opcode, as the low half of the first byte and as the low four bits of the word (R46, R50). -/
theorem InstrGroup.b0_mod_eq_word_mod (g : InstrGroup) : g.b0.toNat % 16 = g.word.toNat % 2 ^ 4 :=
  g.opcode_toNat_eq_b0.symm.trans g.opcode_toNat

end Sys2Proof

namespace Sys2Proof.Machine

/-- A fault that the table gives to the group at `pc` is taken (R90, R92). -/
theorem step_of_faultDue {s : State} {g : InstrGroup} {cause : FaultCause} (hrun : s.status = .run)
    (hg : s.currentGroup = some g) (hdue : s.FaultDue g cause) :
    step s = .next { s with status := .fault, faultRecord := some ⟨cause, s.pc, g.word⟩ } := by
  cases cause with
  | unknownOpcode =>
    obtain ⟨hpolicy, hop⟩ := hdue
    have hmem : g.word.toNat % 2 ^ 4 ∉ [0x2, 0x8, 0x9, 0xA] := by
      rw [← InstrGroup.b0_mod_eq_word_mod]
      simpa using hop
    exact (unknownOpcodePolicyDecides s g hrun hg hmem).1 hpolicy
  | addressOutOfRange =>
    obtain ⟨hpolicy, ⟨hop, hout⟩ | ⟨hop, hsrc, hout⟩⟩ := hdue <;> rw [InstrGroup.b0_mod_eq_word_mod] at hop
    · obtain ⟨_, _, hfault⟩ := stepOnStGroup s g hrun hg hop
      exact hfault hout hpolicy
    · obtain ⟨_, _, _, hfault⟩ := stepOnBswapGroup s g hrun hg hop
      exact hfault hsrc hout hpolicy

/-- All that a step into FAULT can be: a fault that is due to the group at `pc`, recorded in a state that is otherwise
as it was (R90, R92). -/
theorem step_into_fault {s t : State} (h : step s = .next t) (hfault : t.status = .fault) :
    s.status = .run ∧ ∃ g cause, s.currentGroup = some g ∧ s.FaultDue g cause ∧
      t = { s with status := .fault, faultRecord := some ⟨cause, s.pc, g.word⟩ } := by
  obtain ⟨hrun, hresult⟩ := step_next h
  refine ⟨hrun, ?_⟩
  cases hresult with
  | finish _ => cases hfault
  | skip _ _ _ _ _ => cases hrun.symm.trans hfault
  | unknown g _ hg hi hp => exact ⟨g, .unknownOpcode, hg, (faultDue_unknownOpcode_iff s g).2 ⟨hp, hi⟩, rfl⟩
  | instr g i _ _ hg hi ht =>
    cases exec_next ht with
    | load _ _ => cases hrun.symm.trans hfault
    | store _ _ _ _ => cases hrun.symm.trans hfault
    | fault g' hg' hnone =>
      obtain rfl : g = g' := Option.some.inj (hg.symm.trans hg')
      exact ⟨g, .addressOutOfRange, hg, (faultDue_addressOutOfRange_iff hi).2 hnone, rfl⟩

/-- R90's table, cause by cause: the record a step leaves in FAULT tells which fault was due. -/
theorem faultDue_iff_step_records {s : State} {g : InstrGroup} (hrun : s.status = .run)
    (hg : s.currentGroup = some g) (cause : FaultCause) :
    s.FaultDue g cause ↔
      ∃ t, step s = .next t ∧ t.status = .fault ∧ t.faultRecord = some ⟨cause, s.pc, g.word⟩ := by
  refine ⟨fun hdue => ⟨_, step_of_faultDue hrun hg hdue, rfl, rfl⟩, fun ⟨t, hstep, hfault, hrecord⟩ => ?_⟩
  obtain ⟨_, g', cause', hg', hdue, rfl⟩ := step_into_fault hstep hfault
  obtain rfl : g = g' := Option.some.inj (hg.symm.trans hg')
  obtain rfl : cause' = cause := congrArg FaultRecord.cause (Option.some.inj hrecord)
  exact hdue

/-- LDC and LDR have no fault in R90's table: a step on either goes on in RUN. -/
theorem step_run_of_ldc_or_ldr {s : State} {g : InstrGroup} (hrun : s.status = .run) (hg : s.currentGroup = some g)
    (hop : g.b0.toNat % 16 = 0x8 ∨ g.b0.toNat % 16 = 0xA) : ∃ t, step s = .next t ∧ t.status = .run := by
  rw [InstrGroup.b0_mod_eq_word_mod] at hop
  obtain hldc | hldr := hop
  · exact ⟨_, stepOnLdcGroup s g hrun hg hldc, hrun⟩
  · exact ⟨_, stepOnLdrGroup s g hrun hg hldr, hrun⟩

theorem FaultCause.code_ne_zero (cause : FaultCause) : cause.code ≠ 0 := by
  cases cause <;> decide

/-- Settles O36: the table against the step in both directions, and the two numbers of the causes. -/
theorem faultsExactlyWhenDue : Obligations.FaultsExactlyWhenDue :=
  ⟨fun _ _ hrun hg => ⟨faultDue_iff_step_records hrun hg, step_run_of_ldc_or_ldr hrun hg⟩,
    rfl, rfl, FaultCause.code_ne_zero⟩

/-- Settles O37: a step into FAULT writes the status and the record alone, and FAULT has no step. -/
theorem faultLeavesStateAsBefore : Obligations.FaultLeavesStateAsBefore := by
  intro s t hstep hfault
  obtain ⟨hrun, g, cause, hg, _, rfl⟩ := step_into_fault hstep hfault
  exact ⟨hrun, rfl, rfl, rfl, rfl, rfl, ⟨g, cause, hg, rfl⟩, rfl⟩

end Sys2Proof.Machine
end

section
/-! PROOFS. The word placed at the `pc`: it is the group the next step fetches (log entry 13). -/

namespace Sys2Proof

/-- Placing a word of the full 32 bits loses none of them: `BitVec.ofNat 32` drops the same bits as the remainder. -/
theorem tableGroup_32 (w : Nat) : tableGroup 32 w = InstrGroup.ofWord (BitVec.ofNat 32 w) :=
  congrArg InstrGroup.ofWord (BitVec.eq_of_toNat_eq (Nat.mod_mod w (2 ^ 32)))

end Sys2Proof

namespace Sys2Proof.Machine

/-- What stands before the placed group, taken or filled up, is `i` groups: it is read back at `i`. -/
@[simp] theorem placeGroup_getElem?_same (store : List InstrGroup) (i : Nat) (g : InstrGroup) :
    (placeGroup store i g)[i]? = some g := by
  have hbefore : (store.take i ++ List.replicate (i - store.length) InstrGroup.zero).length = i := by
    simp only [List.length_append, List.length_take, List.length_replicate]
    omega
  rw [placeGroup, List.getElem?_append_right hbefore.le, hbefore, Nat.sub_self, List.getElem?_cons_zero]

theorem State.currentGroup_withFetchWord (s : State) (nbits w : Nat) :
    (s.withFetchWord nbits w).currentGroup = some (tableGroup nbits w) :=
  placeGroup_getElem?_same s.store s.pc _

/-- Settles O45: the placed group is the current one, of a state in RUN with the same parameters. -/
theorem placedWordRunsNext : Obligations.PlacedWordRunsNext := by
  intro s w
  have hg := s.currentGroup_withFetchWord 32 w
  rw [tableGroup_32] at hg
  exact step_of_currentGroup (s.withFetchWord_status 32 w) hg

end Sys2Proof.Machine
end
